-- ==== Sys2Proof/Word.lean ====
section
/-! DEFINITION. The two word types of the block and the eight bytes of a grid payload
(00_scope.md R8, R9; 30_encoding.md R65). -/

namespace Sys2Proof

/-- A byte, unsigned, bit 0 the least significant (00_scope.md R8). -/
abbrev Byte := BitVec 8

/-- A grid: bit `8*y + x` is the cell in column `x` and row `y` (00_scope.md R9). -/
abbrev Grid := BitVec 64

/-- The eight wire bytes of one grid, payload byte 0 first (30_encoding.md R65; `WIRE_BYTES` = 8). -/
abbrev Wire := Vector Byte 8

end Sys2Proof
end

