-- ==== Sys2Proof/Config.lean ====
section
/-! DEFINITION. The static configuration of the block (00_scope.md R6, 10_state.md R24, R25) and the
two named test configurations of 00_scope.md R7. -/

namespace Sys2Proof

/-- `BIT_ORDER`: which bit of a payload byte is its first wire bit (41_grid_codec.md R131). -/
inductive BitOrder where
  | lsbFirst
  | msbFirst
deriving DecidableEq, Repr

/-- `IS_READY_MARKER` as data (R6, R113; 91_not_in_source.md N4). DESIGN CHOICE, log 3: the spec takes
any predicate on messages as the parameter, and State is plain data. -/
inductive ReadyMarker where
  /-- The decided default: the message is not empty and its last byte is 0x0A (R113, D10). -/
  | newlineTerminated
  /-- The message is exactly these bytes. -/
  | exactly (msg : List Byte)
  /-- Any other predicate, by number: `Config.otherMarker n`, of which nothing is known. -/
  | other (n : Nat)
deriving DecidableEq, Repr

/-- The predicates `ReadyMarker.other n` stands for: free, with no body (log 3). -/
opaque Config.otherMarker : Nat → List Byte → Bool

/-- The configuration (R6). It is fixed before the first transaction and no transaction writes it (R24).
An entry of `perm` is a natural, so that an entry outside 0..15 can be written down and refused (R136,
R183; log 15). -/
structure Config where
  opButtonUp   : Byte
  opPadDown    : Byte
  opPadUp      : Byte
  opDialChange : Byte
  perm         : Vector Nat 16
  bitOrder     : BitOrder
  readyAtReset : Bool
  marker       : ReadyMarker
  /-- `BUF_CAP`; `none` is 'unbounded' (R42). -/
  bufCap       : Option Nat
deriving DecidableEq, Repr

/-- `PERM_T[j]` = (5·j + 3) mod 16, a test table, not the hardware's (R7). -/
def Config.permT : Vector Nat 16 := #v[3, 8, 13, 2, 7, 12, 1, 6, 11, 0, 5, 10, 15, 4, 9, 14]

/-- `REFCFG` (R7): test values. 'A proof about the hardware must not assume either one.' -/
def Config.ref : Config where
  opButtonUp   := 0x03
  opPadDown    := 0x04
  opPadUp      := 0x07
  opDialChange := 0x08
  perm         := Config.permT
  bitOrder     := .lsbFirst
  readyAtReset := false
  marker       := .newlineTerminated
  bufCap       := none

/-- `IDCFG` (R7): `REFCFG` with the identity table. -/
def Config.ident : Config :=
  { Config.ref with perm := #v[0, 1, 2, 3, 4, 5, 6, 7, 8, 9, 10, 11, 12, 13, 14, 15] }

end Sys2Proof
end

