-- ==== Sys2Proof/Interface.lean ====
section
/-! DEFINITION. The values that cross the block's interface: frames and tokens (40_frame_decoder.md
R101), presented transactions (30_encoding.md R63), outbound frames (R71 to R73), results, and the
reasons of the `fault` record (60_exceptions.md R182 to R184). -/

namespace Sys2Proof

/-- The seven recognised inbound opcodes by name (30_encoding.md R61). -/
inductive Kind where
  | debug
  | syncgrid
  | buttondown
  | buttonup
  | padDown
  | padUp
  | dialchange
deriving DecidableEq, Repr

/-- A decoded inbound frame (R101). -/
inductive Frame where
  | debug (msg : List Byte)
  | syncgrid (w : Wire)
  | buttondown (id : Byte)
  | buttonup (id : Byte)
  | padDown (slot : Byte)
  | padUp (slot : Byte)
  | dialchange (dial value : Byte)
deriving DecidableEq, Repr

/-- What a TAKE returns (R101). -/
inductive Token where
  /-- A complete frame, consumed, to be dispatched. -/
  | frame (f : Frame)
  /-- A complete frame, consumed, not to be dispatched: the handshake is pending. -/
  | discarded (f : Frame)
  /-- One unrecognised head byte, consumed. -/
  | skipped (b : Byte)
  /-- Nothing consumed, nothing changed. -/
  | incomplete
deriving DecidableEq, Repr

/-- What stands at the head of `buf` (R102): too little, an unrecognised byte, or a whole frame. -/
inductive Head where
  | incomplete
  | skipped (b : Byte)
  | frame (f : Frame)
deriving DecidableEq, Repr

/-- A presented transaction: the command code and its operand ports (30_encoding.md R63, 10_state.md R23:
'bytes for APPEND, a grid or 8 wire bytes for the codec, and an op-select plus a grid for XFORM').
A transaction reads only the port of its own operand. DESIGN CHOICE, log 11. -/
structure Request where
  cmd   : BitVec 4
  bytes : List Byte := []
  wire  : Wire := Vector.replicate 8 0
  grid  : Grid := 0
deriving DecidableEq, Repr

/-- The outbound frames the controller assembles (30_encoding.md R71 to R73). -/
inductive Outbound where
  | gridUpdate (g : Grid)
  | syncExit
  | syncEnter
deriving DecidableEq, Repr

/-- What the outside world can do to the block, one at a time (00_scope.md R5; log 1). -/
inductive Event where
  /-- The controller presents a transaction (R63). -/
  | command (r : Request)
  /-- The controller has an outbound frame assembled (R71 to R73, R79; log 10). -/
  | send (o : Outbound)
  /-- Reset (70_reset_and_hazards.md R200; log 8). -/
  | reset
deriving DecidableEq, Repr

/-- What a transaction returns on the interface (30_encoding.md R63). -/
inductive Result where
  | none
  | token (t : Token)
  | grid (g : Grid)
  | wire (w : Wire)
  /-- The bytes of an assembled outbound frame (R71 to R73). -/
  | sent (bs : List Byte)
deriving DecidableEq, Repr

/-- The reasons of the `fault` record (10_state.md R22). -/
inductive FaultReason where
  /-- R182: an APPEND of `incoming` bytes to a bounded buffer that held `held`. -/
  | bufferOverflow (held incoming : Nat)
  /-- R183. No transaction records it: an invalid configuration has no step at all (log 6). -/
  | configInvalid
  /-- R184: a reserved command code was presented. -/
  | reservedCommand
deriving DecidableEq, Repr

end Sys2Proof
end

