-- ==== Sys2Proof/Machine/Operands.lean ====
section
/-! DEFINITION. Views of the operands: bits, cells and rows of a grid (00_scope.md R8, R9), bytes of the
buffer, and the two maps of the codec between wire bytes and cells (41_grid_codec.md R130 to R134). -/

namespace Sys2Proof

/-- The `n`-bit vector whose bit `i` is `f i` (R8: bit 0 is the least significant). -/
def tabulate : (n : Nat) → (Nat → Bool) → BitVec n
  | 0, _ => 0#0
  | n + 1, f => BitVec.cons (f n) (tabulate n f)

/-- `cell(g, x, y)` = `g[8·y + x]` (R9). -/
def cell (g : Grid) (x y : Nat) : Bool := g.getLsbD (8 * y + x)

/-- The grid whose cell in column `x` and row `y` is `f x y` (R9). -/
def ofCells (f : Nat → Nat → Bool) : Grid := tabulate 64 fun i => f (i % 8) (i / 8)

/-- `row_y(g)` = `g[8y+7 : 8y]` (R9). -/
def row (g : Grid) (y : Nat) : Byte := g.extractLsb' (8 * y) 8

/-- Byte `i` of the buffer, counting from the head (R8, R40). -/
def byteAt (buf : List Byte) (i : Nat) : Byte := buf.getD i 0

/-- The place inside its byte of the `i`-th wire bit of a payload byte (R131). -/
def BitOrder.bitPos : BitOrder → Nat → Nat
  | .lsbFirst, i => i
  | .msbFirst, i => 7 - i

/-- Wire bit `u` of eight payload bytes: `W[8k + i]`, bit `i` of byte `k` in `BIT_ORDER` (R131). -/
def wireBit (o : BitOrder) (w : Wire) (u : Nat) : Bool :=
  (w.toList.getD (u / 8) 0).getLsbD (o.bitPos (u % 8))

/-- `PERM[j]` (R25, R132). -/
def Config.permAt (c : Config) (j : Nat) : Nat := c.perm.toList.getD j 0

/-- The logical group that wire group `q` feeds: the `j` with `PERM[j] = q` (R132). For a table that does
not name `q` it is 16, no group: such a table is refused (R136, R183; log 15). -/
def Config.permInv (c : Config) (q : Nat) : Nat := c.perm.toList.idxOf q

/-- `UNPACK` (R133): `g[4j + b] = W[4·PERM[j] + b]`. -/
def unpackWire (c : Config) (w : Wire) : Grid :=
  tabulate 64 fun i => wireBit c.bitOrder w (4 * c.permAt (i / 4) + i % 4)

/-- The wire bit vector of `PACK` (R134): `W[4·PERM[j] + b] = g[4j + b]`, read by wire bit. -/
def packBit (c : Config) (g : Grid) (u : Nat) : Bool :=
  g.getLsbD (4 * c.permInv (u / 4) + u % 4)

/-- `PACK` (R134): `w[k]` is the sum over `i` of `W[8k + i]` at its place in `BIT_ORDER`. -/
def packWire (c : Config) (g : Grid) : Wire :=
  Vector.ofFn fun k : Fin 8 => tabulate 8 fun p => packBit c g (8 * k.val + c.bitOrder.bitPos p)

end Sys2Proof
end

