-- ==== Sys2Proof/Syntax.lean ====
section
/-! DEFINITION. The instructions: one constructor per row of spec/opcode_table.json. -/

namespace Sys2Proof

/-- The rows of the opcode table, in its order. -/
inductive Instr where
  /-- TAKE on a DEBUG frame, `[0x00][L][m0..m(L-1)]` (R64, R105). -/
  | debug (msg : List Byte)
  /-- TAKE on a SYNCGRID frame, `[0x01][w0..w7]` (R65, R106). -/
  | syncgrid (w : Wire)
  /-- TAKE on a BUTTONDOWN frame, `[0x02][id]` (R66, R107). -/
  | buttondown (id : Byte)
  /-- TAKE on a BUTTONUP frame, `[OP_BUTTONUP][id]` (R67, R108). -/
  | buttonup (id : Byte)
  /-- TAKE on a PAD_DOWN frame, `[OP_PAD_DOWN][slot]` (R68, R109). -/
  | padDown (slot : Byte)
  /-- TAKE on a PAD_UP frame, `[OP_PAD_UP][slot]` (R69, R110). -/
  | padUp (slot : Byte)
  /-- TAKE on a DIALCHANGE frame, `[OP_DIALCHANGE][dial][value]` (R70, R111). -/
  | dialchange (dial value : Byte)
  /-- TAKE on an unrecognised head byte (R74, R104). -/
  | skip (b : Byte)
  /-- Outbound `[0x01][PACK(g)]` (R71). -/
  | gridUpdate (g : Grid)
  /-- Outbound `[0x05]` (R72). -/
  | syncExit
  /-- Outbound `[0x06]` (R73). -/
  | syncEnter
  /-- CMD 0x0 (R100). -/
  | append (bs : List Byte)
  /-- CMD 0x1 (R102). -/
  | take
  /-- CMD 0x2 (R133). -/
  | unpack (w : Wire)
  /-- CMD 0x3 (R134). -/
  | pack (g : Grid)
  /-- CMD 0x4 (R151). -/
  | invert (g : Grid)
  /-- CMD 0x5 (R152). -/
  | rotl (g : Grid)
  /-- CMD 0x6 (R153). -/
  | rotr (g : Grid)
  /-- CMD 0x7 (R154). -/
  | flipv (g : Grid)
  /-- CMD 0x8 (R155). -/
  | fliph (g : Grid)
  /-- CMD 0x9 (R156). -/
  | shl (g : Grid)
  /-- CMD 0xA (R157). -/
  | shr (g : Grid)
  /-- CMD 0xB (R158). -/
  | shu (g : Grid)
  /-- CMD 0xC (R159). -/
  | shd (g : Grid)
  /-- CMD 0xD, reserved (R76, R184). -/
  | reservedD
  /-- CMD 0xE, reserved (R76, R184). -/
  | reservedE
  /-- CMD 0xF, reserved (R76, R184). -/
  | reservedF
deriving DecidableEq, Repr

end Sys2Proof
end

