-- ==== Sys2Proof/Decode.lean ====
section
/-! DEFINITION. The decoders of the three code spaces of spec/opcode_table.json (inbound frames R60 to R75,
outbound frames R71 to R73, command codes R63), total, rejecting by name, and after them the encoder. -/

namespace Sys2Proof

/-- `RECOG` and the opcode each member has (30_encoding.md R61). -/
def Config.kindOf (c : Config) (op : Byte) : Option Kind :=
  if op = 0x00 then some .debug
  else if op = 0x01 then some .syncgrid
  else if op = 0x02 then some .buttondown
  else if op = c.opButtonUp then some .buttonup
  else if op = c.opPadDown then some .padDown
  else if op = c.opPadUp then some .padUp
  else if op = c.opDialChange then some .dialchange
  else none

/-- The opcode byte of a kind (R61). -/
def Config.opcode (c : Config) : Kind → Byte
  | .debug => 0x00
  | .syncgrid => 0x01
  | .buttondown => 0x02
  | .buttonup => c.opButtonUp
  | .padDown => c.opPadDown
  | .padUp => c.opPadUp
  | .dialchange => c.opDialChange

/-- `frame_len(buf)` (R75, lengths of R62). `none` where it is not defined (an empty buffer, an unrecognised
head byte) or UNKNOWN (a DEBUG opcode without its length byte). -/
def frameLen (c : Config) (buf : List Byte) : Option Nat :=
  match buf with
  | [] => none
  | op :: rest =>
    match c.kindOf op with
    | none => none
    | some .debug =>
      match rest with
      | [] => none
      | len :: _ => some (2 + len.toNat)
    | some .syncgrid => some 9
    | some .buttondown => some 2
    | some .buttonup => some 2
    | some .padDown => some 2
    | some .padUp => some 2
    | some .dialchange => some 3

/-- `parse(op, buf[0..n))` of a frame that is wholly present (R102; R64 to R70). -/
def parse (k : Kind) (buf : List Byte) : Frame :=
  match k with
  | .debug => .debug ((buf.drop 2).take (byteAt buf 1).toNat)
  | .syncgrid => .syncgrid (Vector.ofFn fun i : Fin 8 => byteAt buf (i.val + 1))
  | .buttondown => .buttondown (byteAt buf 1)
  | .buttonup => .buttonup (byteAt buf 1)
  | .padDown => .padDown (byteAt buf 1)
  | .padUp => .padUp (byteAt buf 1)
  | .dialchange => .dialchange (byteAt buf 1) (byteAt buf 2)

/-- TAKE's checks on the head of `buf`, in the order of R102: empty, unrecognised, DEBUG length byte missing,
frame incomplete, complete. -/
def decodeHead (c : Config) (buf : List Byte) : Head :=
  match buf with
  | [] => .incomplete
  | op :: _ =>
    match c.kindOf op with
    | none => .skipped op
    | some k =>
      match frameLen c buf with
      | none => .incomplete
      | some n => if buf.length < n then .incomplete else .frame (parse k buf)

/-- How many bytes a frame has, its opcode byte counted (R62). -/
def Frame.length : Frame → Nat
  | .debug msg => 2 + msg.length
  | .syncgrid _ => 9
  | .buttondown _ | .buttonup _ | .padDown _ | .padUp _ => 2
  | .dialchange _ _ => 3

/-- The instruction a frame at the head of `buf` is. -/
def Frame.toInstr : Frame → Instr
  | .debug msg => .debug msg
  | .syncgrid w => .syncgrid w
  | .buttondown id => .buttondown id
  | .buttonup id => .buttonup id
  | .padDown slot => .padDown slot
  | .padUp slot => .padUp slot
  | .dialchange dial value => .dialchange dial value

/-- The instruction an outbound frame is. -/
def Outbound.toInstr : Outbound → Instr
  | .gridUpdate g => .gridUpdate g
  | .syncExit => .syncExit
  | .syncEnter => .syncEnter

/-- The transaction a presented command code selects, with its operand port (R63, R76). -/
def decodeCommand (r : Request) : Instr :=
  match r.cmd.toNat with
  | 0x0 => .append r.bytes
  | 0x1 => .take
  | 0x2 => .unpack r.wire
  | 0x3 => .pack r.grid
  | 0x4 => .invert r.grid
  | 0x5 => .rotl r.grid
  | 0x6 => .rotr r.grid
  | 0x7 => .flipv r.grid
  | 0x8 => .fliph r.grid
  | 0x9 => .shl r.grid
  | 0xA => .shr r.grid
  | 0xB => .shu r.grid
  | 0xC => .shd r.grid
  | 0xD => .reservedD
  | 0xE => .reservedE
  | _ => .reservedF

/-- An encoded instruction in its code space. -/
inductive Encoded where
  /-- Bytes of the inbound stream (R60). -/
  | inbound (bs : List Byte)
  /-- Bytes of the outbound stream (R71 to R73). -/
  | outbound (bs : List Byte)
  /-- A presented transaction (R63). -/
  | command (r : Request)
deriving DecidableEq, Repr

/-- Why bytes are no instruction. -/
inductive Reject where
  /-- Too few bytes for the inbound frame they begin, or none (R114). -/
  | incompleteInbound
  /-- No outbound frame begins with this byte (R71 to R73). -/
  | unknownOutbound (op : Byte)
  /-- Too few bytes for an outbound frame, or none. -/
  | truncatedOutbound
deriving DecidableEq, Repr

/-- The first outbound frame of a byte sequence, and the bytes after it (R71 to R73). -/
def decodeOutbound (c : Config) (bs : List Byte) : Except Reject (Instr × List Byte) :=
  match bs with
  | [] => .error .truncatedOutbound
  | op :: rest =>
    if op = 0x01 then
      if rest.length < 8 then .error .truncatedOutbound
      else .ok (.gridUpdate (unpackWire c (Vector.ofFn fun i : Fin 8 => byteAt rest i.val)), rest.drop 8)
    else if op = 0x05 then .ok (.syncExit, rest)
    else if op = 0x06 then .ok (.syncEnter, rest)
    else .error (.unknownOutbound op)

/-- The first inbound frame or skipped byte of a byte sequence, and the bytes after it (R102). -/
def decodeInbound (c : Config) (bs : List Byte) : Except Reject (Instr × List Byte) :=
  match decodeHead c bs with
  | .incomplete => .error .incompleteInbound
  | .skipped b => .ok (.skip b, bs.drop 1)
  | .frame f => .ok (f.toInstr, bs.drop f.length)

/-- The decoder: the instruction and what is left of its byte sequence. -/
def decode (c : Config) : Encoded → Except Reject (Instr × List Byte)
  | .inbound bs => decodeInbound c bs
  | .outbound bs => decodeOutbound c bs
  | .command r => .ok (decodeCommand r, [])

/-- The bytes of a frame: opcode byte, then payload (R64 to R70; R77: 'Each frame name assembles to the bytes
of rules R64 to R70'). -/
def frameBytes (c : Config) : Frame → List Byte
  | .debug msg => c.opcode .debug :: BitVec.ofNat 8 msg.length :: msg
  | .syncgrid w => c.opcode .syncgrid :: w.toList
  | .buttondown id => [c.opcode .buttondown, id]
  | .buttonup id => [c.opcode .buttonup, id]
  | .padDown slot => [c.opcode .padDown, slot]
  | .padUp slot => [c.opcode .padUp, slot]
  | .dialchange dial value => [c.opcode .dialchange, dial, value]

/-- The bytes of an outbound frame (R71 to R73). -/
def outboundBytes (c : Config) : Outbound → List Byte
  | .gridUpdate g => 0x01 :: (packWire c g).toList
  | .syncExit => [0x05]
  | .syncEnter => [0x06]

/-- The encoder, written from the formats of R64 to R74 and the command codes of R63. Ports a transaction does
not read are left empty (log 11). -/
def encode (c : Config) : Instr → Encoded
  | .debug msg => .inbound (frameBytes c (.debug msg))
  | .syncgrid w => .inbound (frameBytes c (.syncgrid w))
  | .buttondown id => .inbound (frameBytes c (.buttondown id))
  | .buttonup id => .inbound (frameBytes c (.buttonup id))
  | .padDown slot => .inbound (frameBytes c (.padDown slot))
  | .padUp slot => .inbound (frameBytes c (.padUp slot))
  | .dialchange dial value => .inbound (frameBytes c (.dialchange dial value))
  | .skip b => .inbound [b]
  | .gridUpdate g => .outbound (outboundBytes c (.gridUpdate g))
  | .syncExit => .outbound (outboundBytes c .syncExit)
  | .syncEnter => .outbound (outboundBytes c .syncEnter)
  | .append bs => .command { cmd := 0x0, bytes := bs }
  | .take => .command { cmd := 0x1 }
  | .unpack w => .command { cmd := 0x2, wire := w }
  | .pack g => .command { cmd := 0x3, grid := g }
  | .invert g => .command { cmd := 0x4, grid := g }
  | .rotl g => .command { cmd := 0x5, grid := g }
  | .rotr g => .command { cmd := 0x6, grid := g }
  | .flipv g => .command { cmd := 0x7, grid := g }
  | .fliph g => .command { cmd := 0x8, grid := g }
  | .shl g => .command { cmd := 0x9, grid := g }
  | .shr g => .command { cmd := 0xA, grid := g }
  | .shu g => .command { cmd := 0xB, grid := g }
  | .shd g => .command { cmd := 0xC, grid := g }
  | .reservedD => .command { cmd := 0xD }
  | .reservedE => .command { cmd := 0xE }
  | .reservedF => .command { cmd := 0xF }

/-- The bytes of a table word, its bits numbered as spec/opcode_table.json numbers them (bits 7..0 the first
byte), with zero bytes up to the longest frame (257 bytes, R62). -/
def tableBytes (w : Nat) : List Byte := (List.range 257).map fun k => BitVec.ofNat 8 (w >>> (8 * k))

/-- The code space a table word is read in. DESIGN CHOICE, log 12: the three code spaces share their values, and
the word alone does not say which row is meant. A word of at most eight bits below 16 is a presented command
code with all operand ports zero; any other word is bytes of the inbound stream. -/
def tableEncoded (nbits w : Nat) : Encoded :=
  if nbits ≤ 8 ∧ w < 16 then .command { cmd := BitVec.ofNat 4 w }
  else .inbound (tableBytes w)

/-- The instruction the decoder reads from a table word, under the configuration that `State.reset` has. -/
def decodeTableWord (nbits w : Nat) : Option Instr :=
  match decode Config.ref (tableEncoded nbits w) with
  | .ok (i, _) => some i
  | .error _ => none

end Sys2Proof
end

