-- ==== Sys2Proof/Machine/Flags.lean ====
section
/-! DEFINITION. The block's status (10_state.md R27: no flag register; the token kind, `ready` and `fault`):
the readiness marker and the handshake gate (40_frame_decoder.md R112, R113), the codes of the fault
reasons (60_exceptions.md R182 to R184), and the validity of a configuration (R183). -/

namespace Sys2Proof

/-- The default marker predicate (R113): `len(msg) ≥ 1 and msg[len(msg)−1] = 0x0A`. -/
def endsInNewline (msg : List Byte) : Bool := msg.getLast? == some 0x0A

/-- `IS_READY_MARKER` (R6, R113). -/
def ReadyMarker.accepts : ReadyMarker → List Byte → Bool
  | .newlineTerminated, msg => endsInNewline msg
  | .exactly m, msg => msg == m
  | .other n, msg => Config.otherMarker n msg

/-- `ready` after the gate has seen the frame (R112, R113): a DEBUG frame with the marker sets it, and
nothing else changes it. -/
def readyAfter (m : ReadyMarker) (ready : Bool) : Frame → Bool
  | .debug msg => if !ready && m.accepts msg then true else ready
  | .syncgrid _ | .buttondown _ | .buttonup _ | .padDown _ | .padUp _ | .dialchange _ _ => ready

/-- The token the gate reports a frame as (R112): a DEBUG frame always as FRAME, any other as FRAME when
`ready` and as DISCARDED when not. -/
def gateToken (ready : Bool) : Frame → Token
  | .debug msg => .frame (.debug msg)
  | f => if ready then .frame f else .discarded f

/-- The code of a fault or refusal (R182: 1, R183: 2, R184: 3). -/
def FaultReason.code : FaultReason → Nat
  | .bufferOverflow _ _ => 1
  | .configInvalid => 2
  | .reservedCommand => 3

/-- `PERM` is a bijection on 0..15 (R136): 16 entries below 16, none repeated. -/
def Config.permBijective (c : Config) : Bool :=
  c.perm.toList.all (fun q => decide (q < 16)) && decide c.perm.toList.Nodup

/-- The four OPEN opcode parameters (R6). -/
def Config.openOpcodes (c : Config) : List Byte :=
  [c.opButtonUp, c.opPadDown, c.opPadUp, c.opDialChange]

/-- `BUF_CAP` is unbounded or at least 257 (R42). -/
def Config.capAllowed (c : Config) : Bool :=
  match c.bufCap with
  | none => true
  | some n => decide (257 ≤ n)

/-- The configuration is not refused (R183). -/
def Config.valid (c : Config) : Bool :=
  c.permBijective
    && decide c.openOpcodes.Nodup
    && c.openOpcodes.all (fun op => decide (3 ≤ op.toNat) && decide (op.toNat ≤ 8))
    && c.capAllowed

end Sys2Proof
end

