-- ==== Sys2Proof/Machine/State.lean ====
section
/-! DEFINITION. The machine's state (10_state.md), the ways a step can stop, and reset (70_reset_and_hazards.md
R200). -/

namespace Sys2Proof.Machine

/-- The state: the three elements of 10_state.md R20 to R22, the static configuration (R24, R25), and two fields of
the model's own, the controller's queue and the interface result. -/
structure State where
  /-- The configuration (R24). Nothing writes it. -/
  cfg     : Config
  /-- The decoder buffer, oldest byte first (R20). -/
  buf     : List Byte
  /-- The handshake flag (R21). -/
  ready   : Bool
  /-- The sticky fault record (R22). -/
  fault   : Option FaultReason
  /-- The model's own: what the controller presents next, first one first (R5; log 1). -/
  pending : List Event
  /-- The model's own: what the latest transaction returned (R63; log 4). -/
  result  : Result
deriving DecidableEq, Repr

/-- How a step can stop with a fault. -/
inductive Fault where
  /-- Raised by every transaction, and by an idle step, while the record `fault` is set (R185: 'the block is stuck').
  Safe: the spec gives no step there. -/
  | stuck (r : FaultReason)
deriving DecidableEq, Repr

/-- How a step can be refused. -/
inductive Refusal where
  /-- Raised by `exec`'s arm of an instruction that has no meaning yet. Safe. No arm raises it now. -/
  | notModelled (mnemonic : String)
  /-- Raised by every step, whatever it is, under an invalid configuration (R183: 'the block has no step at all').
  Safe: the spec gives no step there. -/
  | configInvalid
deriving DecidableEq, Repr

/-- The block right after reset under the configuration `c` (R200), with nothing presented (log 1) and no result
(log 4). -/
def State.resetWith (c : Config) : State where
  cfg     := c
  buf     := []
  ready   := c.readyAtReset
  fault   := none
  pending := []
  result  := .none

/-- The machine right after reset. DESIGN CHOICE, log 2: the OPEN parameters have the values of `REFCFG`, which are
not the hardware's. -/
def State.reset : State := State.resetWith Config.ref

end Sys2Proof.Machine
end

