-- ==== Sys2Proof/Machine/Ops.lean ====
section
/-! DEFINITION. The named operations over the state: reads and writes of its fields, the guard of a transaction,
returning a result, consuming the head of the buffer, recording a fault and reset. -/

namespace Sys2Proof.Machine

/-- What `exec` and `step` answer. -/
abbrev Answer := Host.Outcome State Fault Refusal

/-- `buf <- bs` (00_scope.md R11). -/
def State.setBuf (s : State) (bs : List Byte) : State := { s with buf := bs }

/-- `ready <- b`. -/
def State.setReady (s : State) (b : Bool) : State := { s with ready := b }

/-- `fault <- r`. -/
def State.setFault (s : State) (r : Option FaultReason) : State := { s with fault := r }

/-- `return r`. -/
def State.setResult (s : State) (r : Result) : State := { s with result := r }

/-- What the controller presents after this. -/
def State.setPending (s : State) (es : List Event) : State := { s with pending := es }

/-- The guard of every transaction (60_exceptions.md R185, R186): an invalid configuration comes first and prevents
every step (R183); then, while a fault is recorded, no transaction has a step. -/
def transact (s : State) (body : State → Answer) : Answer :=
  if s.cfg.valid then
    match s.fault with
    | none => body s
    | some r => .fault (.stuck r)
  else .refused .configInvalid

/-- `return r` with no other state written (00_scope.md R11). -/
def respond (r : Result) (s : State) : Answer := .next (s.setResult r)

/-- `raise r` (00_scope.md R11): no state write of the transaction takes effect except that `fault` is set, and
there is no result (R182, R184). The one operation that takes a model fault. -/
def raise (r : FaultReason) (s : State) : Answer := .next ((s.setFault (some r)).setResult .none)

/-- Reset (70_reset_and_hazards.md R200): the configuration stays, everything else of the block is as after reset.
The controller's queue is not the block's and stays (log 8). -/
def resetBlock (s : State) : State := (State.resetWith s.cfg).setPending s.pending

/-- The way back from a recorded fault, and the only one (R185): reset. An invalid configuration prevents even this
step (R183; log 6). -/
def takeReset (s : State) : Answer :=
  if s.cfg.valid then .next (resetBlock s) else .refused .configInvalid

/-- Nothing is presented: 'Between transactions the block holds `buf`, `ready` and `fault` unchanged' (R193; log 7). -/
def idle (s : State) : Answer := transact s fun s => .next s

/-- An APPEND would take `len(buf)` above a bounded `BUF_CAP` (40_frame_decoder.md R100). -/
def State.overflows (s : State) (bs : List Byte) : Bool :=
  match s.cfg.bufCap with
  | none => false
  | some cap => decide (cap < s.buf.length + bs.length)

/-- `buf <- buf ++ bs` (R100). -/
def appendBytes (bs : List Byte) (s : State) : Answer :=
  .next ((s.setBuf (s.buf ++ bs)).setResult .none)

/-- Consume the frame `f` at the head of `buf` and report it through the gate (R102, R112, R113). -/
def takeFrame (f : Frame) (s : State) : Answer :=
  .next (((s.setBuf (s.buf.drop f.length)).setReady (readyAfter s.cfg.marker s.ready f)).setResult
    (.token (gateToken s.ready f)))

/-- Consume one unrecognised byte at the head of `buf` (R104). -/
def skipByte (b : Byte) (s : State) : Answer :=
  .next ((s.setBuf (s.buf.drop 1)).setResult (.token (.skipped b)))

/-- What the next step does. -/
inductive Fetched where
  /-- Nothing is presented. -/
  | idle
  /-- A reset comes. -/
  | reset (s : State)
  /-- An instruction is presented; `s` is the state with it taken from the queue. -/
  | run (i : Instr) (s : State)

/-- Take the next presented event from the queue and decode it (30_encoding.md R63; log 1). -/
def fetch (s : State) : Fetched :=
  match s.pending with
  | [] => .idle
  | .reset :: es => .reset (s.setPending es)
  | .command r :: es => .run (decodeCommand r) (s.setPending es)
  | .send o :: es => .run o.toInstr (s.setPending es)

/-- The state in which a given encoded instruction is what the next step runs: a command is presented first; an
inbound frame is put at the head of `buf` and TAKE is presented; an outbound frame is never built from a table
word (log 12, log 13). -/
def placeEncoded (s : State) : Encoded → State
  | .command r => s.setPending (.command r :: s.pending)
  | .inbound bs => (s.setBuf bs).setPending (.command { cmd := 0x1 } :: s.pending)
  | .outbound _ => s

end Sys2Proof.Machine
end

