-- ==== Sys2Proof/Machine/Codec.lean ====
section
/-! DEFINITION. The grid codec's instructions UNPACK and PACK (41_grid_codec.md R133, R134) and the outbound frames
whose payload PACK produces (30_encoding.md R71 to R73; log 10). -/

namespace Sys2Proof.Machine

/-- UNPACK (R133). -/
def execUnpack (w : Wire) (s : State) : Answer :=
  transact s fun s => respond (.grid (unpackWire s.cfg w)) s

/-- PACK (R134). -/
def execPack (g : Grid) (s : State) : Answer :=
  transact s fun s => respond (.wire (packWire s.cfg g)) s

/-- GRID_UPDATE (R71): the nine bytes the controller sends. -/
def execGridUpdate (g : Grid) (s : State) : Answer :=
  transact s fun s => respond (.sent (outboundBytes s.cfg (.gridUpdate g))) s

/-- SYNC_EXIT (R72). -/
def execSyncExit (s : State) : Answer :=
  transact s fun s => respond (.sent (outboundBytes s.cfg .syncExit)) s

/-- SYNC_ENTER (R73). -/
def execSyncEnter (s : State) : Answer :=
  transact s fun s => respond (.sent (outboundBytes s.cfg .syncEnter)) s

end Sys2Proof.Machine
end

