-- ==== Sys2Proof/Machine/Decoder.lean ====
section
/-! DEFINITION. The frame decoder's instructions: TAKE on each kind of frame, SKIP, APPEND and TAKE
(40_frame_decoder.md), and the reserved command codes (60_exceptions.md R184). A frame's meaning is what TAKE does when
that frame stands at the head of `buf` (log 9). -/

namespace Sys2Proof.Machine

/-- TAKE on a DEBUG frame (R105). -/
def execDebug (msg : List Byte) (s : State) : Answer := transact s (takeFrame (.debug msg))

/-- TAKE on a SYNCGRID frame (R106). -/
def execSyncgrid (w : Wire) (s : State) : Answer := transact s (takeFrame (.syncgrid w))

/-- TAKE on a BUTTONDOWN frame (R107). -/
def execButtondown (id : Byte) (s : State) : Answer := transact s (takeFrame (.buttondown id))

/-- TAKE on a BUTTONUP frame (R108). -/
def execButtonup (id : Byte) (s : State) : Answer := transact s (takeFrame (.buttonup id))

/-- TAKE on a PAD_DOWN frame (R109). -/
def execPadDown (slot : Byte) (s : State) : Answer := transact s (takeFrame (.padDown slot))

/-- TAKE on a PAD_UP frame (R110). -/
def execPadUp (slot : Byte) (s : State) : Answer := transact s (takeFrame (.padUp slot))

/-- TAKE on a DIALCHANGE frame (R111). -/
def execDialchange (dial value : Byte) (s : State) : Answer :=
  transact s (takeFrame (.dialchange dial value))

/-- TAKE on an unrecognised head byte (R104). -/
def execSkip (b : Byte) (s : State) : Answer := transact s (skipByte b)

/-- APPEND (R100, R182). -/
def execAppend (bs : List Byte) (s : State) : Answer :=
  transact s fun s =>
    if s.overflows bs then raise (.bufferOverflow s.buf.length bs.length) s
    else appendBytes bs s

/-- The meaning of the frame that stands at the head. -/
def execFrame (f : Frame) (s : State) : Answer :=
  match f with
  | .debug msg => execDebug msg s
  | .syncgrid w => execSyncgrid w s
  | .buttondown id => execButtondown id s
  | .buttonup id => execButtonup id s
  | .padDown slot => execPadDown slot s
  | .padUp slot => execPadUp slot s
  | .dialchange dial value => execDialchange dial value s

/-- TAKE (R102): classify the head of `buf`, and consume at most one frame or one byte. -/
def execTake (s : State) : Answer :=
  transact s fun s =>
    match decodeHead s.cfg s.buf with
    | .incomplete => respond (.token .incomplete) s
    | .skipped b => execSkip b s
    | .frame f => execFrame f s

/-- CMD 0xD, reserved (R184). -/
def execReservedD (s : State) : Answer := transact s (raise .reservedCommand)

/-- CMD 0xE, reserved (R184). -/
def execReservedE (s : State) : Answer := transact s (raise .reservedCommand)

/-- CMD 0xF, reserved (R184). -/
def execReservedF (s : State) : Answer := transact s (raise .reservedCommand)

end Sys2Proof.Machine
end

