-- ==== Sys2Proof/Machine/Transforms.lean ====
section
/-! DEFINITION. The nine grid transforms (42_grid_transforms.md R150 to R159): each as a function of grids, written from
its pseudocode, and the transaction that returns its value. -/

namespace Sys2Proof.Machine

/-- `cell(g', x, y) = not cell(g, x, y)` (R151). -/
def invertGrid (g : Grid) : Grid := ofCells fun x y => !cell g x y

/-- `cell(g', x, y) = cell(g, 7 - y, x)` (R152). -/
def rotlGrid (g : Grid) : Grid := ofCells fun x y => cell g (7 - y) x

/-- `g' = ROTL(ROTL(ROTL(g)))` (R153). -/
def rotrGrid (g : Grid) : Grid := rotlGrid (rotlGrid (rotlGrid g))

/-- `cell(g', x, y) = cell(g, x, 7 - y)` (R154). -/
def flipvGrid (g : Grid) : Grid := ofCells fun x y => cell g x (7 - y)

/-- `cell(g', x, y) = cell(g, 7 - x, y)` (R155). -/
def fliphGrid (g : Grid) : Grid := ofCells fun x y => cell g (7 - x) y

/-- `cell(g', x, y) = cell(g, (x + 1) mod 8, y)` (R156). -/
def shlGrid (g : Grid) : Grid := ofCells fun x y => cell g ((x + 1) % 8) y

/-- `cell(g', x, y) = cell(g, (x + 7) mod 8, y)` (R157). -/
def shrGrid (g : Grid) : Grid := ofCells fun x y => cell g ((x + 7) % 8) y

/-- `cell(g', x, y) = cell(g, x, (y + 1) mod 8)` (R158). -/
def shuGrid (g : Grid) : Grid := ofCells fun x y => cell g x ((y + 1) % 8)

/-- `cell(g', x, y) = cell(g, x, (y + 7) mod 8)` (R159). -/
def shdGrid (g : Grid) : Grid := ofCells fun x y => cell g x ((y + 7) % 8)

/-- INVERT (R151). -/
def execInvert (g : Grid) (s : State) : Answer := transact s (respond (.grid (invertGrid g)))

/-- ROTL (R152). -/
def execRotl (g : Grid) (s : State) : Answer := transact s (respond (.grid (rotlGrid g)))

/-- ROTR (R153). -/
def execRotr (g : Grid) (s : State) : Answer := transact s (respond (.grid (rotrGrid g)))

/-- FLIPV (R154). -/
def execFlipv (g : Grid) (s : State) : Answer := transact s (respond (.grid (flipvGrid g)))

/-- FLIPH (R155). -/
def execFliph (g : Grid) (s : State) : Answer := transact s (respond (.grid (fliphGrid g)))

/-- SHL (R156). -/
def execShl (g : Grid) (s : State) : Answer := transact s (respond (.grid (shlGrid g)))

/-- SHR (R157). -/
def execShr (g : Grid) (s : State) : Answer := transact s (respond (.grid (shrGrid g)))

/-- SHU (R158). -/
def execShu (g : Grid) (s : State) : Answer := transact s (respond (.grid (shuGrid g)))

/-- SHD (R159). -/
def execShd (g : Grid) (s : State) : Answer := transact s (respond (.grid (shdGrid g)))

end Sys2Proof.Machine
end

