-- ==== Sys2Proof/Machine/Dispatch.lean ====
section
/-! DEFINITION. One arm per instruction. -/

namespace Sys2Proof.Machine

/-- The meaning of each instruction. -/
def exec (i : Instr) (s : State) : Host.Outcome State Fault Refusal :=
  match i with
  -- inbound frames (40_frame_decoder.md R104 to R111)
  | .debug msg => Sys2Proof.Machine.execDebug msg s
  | .syncgrid w => Sys2Proof.Machine.execSyncgrid w s
  | .buttondown id => Sys2Proof.Machine.execButtondown id s
  | .buttonup id => Sys2Proof.Machine.execButtonup id s
  | .padDown slot => Sys2Proof.Machine.execPadDown slot s
  | .padUp slot => Sys2Proof.Machine.execPadUp slot s
  | .dialchange dial value => Sys2Proof.Machine.execDialchange dial value s
  | .skip b => Sys2Proof.Machine.execSkip b s
  -- outbound frames (30_encoding.md R71 to R73)
  | .gridUpdate g => Sys2Proof.Machine.execGridUpdate g s
  | .syncExit => Sys2Proof.Machine.execSyncExit s
  | .syncEnter => Sys2Proof.Machine.execSyncEnter s
  -- transactions (30_encoding.md R63)
  | .append bs => Sys2Proof.Machine.execAppend bs s
  | .take => Sys2Proof.Machine.execTake s
  | .unpack w => Sys2Proof.Machine.execUnpack w s
  | .pack g => Sys2Proof.Machine.execPack g s
  | .invert g => Sys2Proof.Machine.execInvert g s
  | .rotl g => Sys2Proof.Machine.execRotl g s
  | .rotr g => Sys2Proof.Machine.execRotr g s
  | .flipv g => Sys2Proof.Machine.execFlipv g s
  | .fliph g => Sys2Proof.Machine.execFliph g s
  | .shl g => Sys2Proof.Machine.execShl g s
  | .shr g => Sys2Proof.Machine.execShr g s
  | .shu g => Sys2Proof.Machine.execShu g s
  | .shd g => Sys2Proof.Machine.execShd g s
  -- reserved command codes (60_exceptions.md R184)
  | .reservedD => Sys2Proof.Machine.execReservedD s
  | .reservedE => Sys2Proof.Machine.execReservedE s
  | .reservedF => Sys2Proof.Machine.execReservedF s

end Sys2Proof.Machine
end

