-- ==== Sys2Proof/Machine/Step.lean ====
section
/-! DEFINITION. One step: what the controller presents next is taken and run (00_scope.md R5, 20_memory.md R51). -/

namespace Sys2Proof.Machine

/-- One transaction, one reset, or one idle step. -/
def step (s : State) : Host.Outcome State Fault Refusal :=
  match fetch s with
  | .idle => idle s
  | .reset s' => takeReset s'
  | .run i s' => exec i s'

/-- `s` with the instruction of a table word where the next step takes its instruction from (log 12, log 13). -/
def State.withFetchWord (s : State) (nbits w : Nat) : State := placeEncoded s (tableEncoded nbits w)

end Sys2Proof.Machine
end

