-- ==== Sys2Proof/Machine/Macros.lean ====
section
/-! DEFINITION. The pseudo-transactions a controller issues as sequences of real transactions (30_encoding.md R79,
40_frame_decoder.md R115): DRAIN, FEED and SENDGRID (log 17). -/

namespace Sys2Proof.Machine

/-- At most `n` TAKEs, until one returns INCOMPLETE or has no step: the tokens before it, and the state it leaves. -/
def drainUpTo : Nat → State → List Token × State
  | 0, s => ([], s)
  | n + 1, s =>
    match exec .take s with
    | .next s' =>
      match s'.result with
      | .token .incomplete => ([], s')
      | .token t =>
        let r := drainUpTo n s'
        (t :: r.1, r.2)
      | .none | .grid _ | .wire _ | .sent _ => ([], s')
    | .fault _ => ([], s)
    | .refused _ => ([], s)

/-- `DRAIN` (R115). `len(buf) + 1` TAKEs are enough (R116). -/
def drain (s : State) : List Token × State := drainUpTo (s.buf.length + 1) s

/-- `FEED bs` (R79): `APPEND bs; DRAIN`. -/
def feed (bs : List Byte) (s : State) : List Token × State :=
  match exec (.append bs) s with
  | .next s' => drain s'
  | .fault _ => ([], s)
  | .refused _ => ([], s)

/-- `FEED c1; ...; FEED cn`: the tokens of all of them, and the state they leave (R118). -/
def feedAll : List (List Byte) → State → List Token × State
  | [], s => ([], s)
  | c :: cs, s =>
    let r := feed c s
    let r' := feedAll cs r.2
    (r.1 ++ r'.1, r'.2)

/-- `SENDGRID g` (R79): PACK, and its eight bytes after the byte 0x01; `none` where PACK has no step. -/
def sendGrid (g : Grid) (s : State) : Option (List Byte) :=
  match exec (.pack g) s with
  | .next s' =>
    match s'.result with
    | .wire w => some (0x01 :: w.toList)
    | .none | .token _ | .grid _ | .sent _ => none
  | .fault _ => none
  | .refused _ => none

end Sys2Proof.Machine
end

