-- ==== Sys2Proof/WellFormed.lean ====
section
/-! DEFINITION. Which instructions have an encoding: the two checks that their types do not make. -/

namespace Sys2Proof

/-- A DEBUG message has at most 255 bytes (30_encoding.md R64; `DEBUG_LMAX`), and a skipped byte is one outside
`RECOG` (R74). Every other operand is of a type that admits its encoding's values only. -/
def wellFormed (c : Config) : Instr → Bool
  | .debug msg => decide (msg.length ≤ 255)
  | .skip b => (c.kindOf b).isNone
  | .syncgrid _ | .buttondown _ | .buttonup _ | .padDown _ | .padUp _ | .dialchange _ _ => true
  | .gridUpdate _ | .syncExit | .syncEnter => true
  | .append _ | .take | .unpack _ | .pack _ => true
  | .invert _ | .rotl _ | .rotr _ | .flipv _ | .fliph _ | .shl _ | .shr _ | .shu _ | .shd _ => true
  | .reservedD | .reservedE | .reservedF => true

end Sys2Proof
end

