-- ==== Sys2Proof/Safety.lean ====
section
/-! DEFINITION. What statements say of states: the invariant of the block (10_state.md R31), the states that have a
step (60_exceptions.md R183, R185), and the bytes a token stands for. -/

namespace Sys2Proof.Machine

/-- `len(buf) ≤ BUF_CAP` where it is bounded (R31 iii, R42). -/
def State.BufFits (s : State) : Prop := ∀ cap, s.cfg.bufCap = some cap → s.buf.length ≤ cap

/-- The invariant every step keeps: the configuration is a valid one (R183) and the buffer is within it (R31 iii). -/
structure State.Inv (s : State) : Prop where
  config : s.cfg.valid = true
  fits   : s.BufFits

/-- Transactions have a step: a valid configuration (R183) and no recorded fault (R185). -/
structure State.Live (s : State) : Prop where
  config  : s.cfg.valid = true
  noFault : s.fault = none

/-- The bytes of the stream a token consumed (30_encoding.md R64 to R70, R74). -/
def tokenBytes (c : Config) : Token → List Byte
  | .frame f => frameBytes c f
  | .discarded f => frameBytes c f
  | .skipped b => [b]
  | .incomplete => []

/-- A token with the gate's verdict taken off: what the parser saw (40_frame_decoder.md R112). -/
def bareToken : Token → Token
  | .discarded f => .frame f
  | .frame f => .frame f
  | .skipped b => .skipped b
  | .incomplete => .incomplete

/-- One item of a parsed stream: a frame that has an encoding, or one unrecognised byte (R74, R117). -/
def IsItem (c : Config) : Token → Prop
  | .frame f => wellFormed c f.toInstr = true
  | .skipped b => c.kindOf b = none
  | .discarded _ => False
  | .incomplete => False

/-- `items` is a left-to-right parse of `buf` 'into frames and unrecognised single bytes, up to but not including an
incomplete tail' (R117). -/
structure IsParse (c : Config) (buf : List Byte) (items : List Token) (tail : List Byte) : Prop where
  each  : ∀ t ∈ items, IsItem c t
  bytes : items.flatMap (tokenBytes c) ++ tail = buf
  ends  : decodeHead c tail = .incomplete

/-- The number of set cells of a grid. -/
def setCells (g : Grid) : Nat := (List.range 64).countP fun i => g.getLsbD i

end Sys2Proof.Machine
end

