-- ==== Sys2Proof/Certificates/Slice0/Obligations.lean ====
section
/-! DEFINITION. The statements for the provers, each a numbered rule of spec/ or a property that spec/ derives. `Live s`
is a state in which transactions have a step: a valid configuration (60_exceptions.md R183) and no recorded fault
(R185). -/

open Sys2Proof Sys2Proof.Machine

/-! ### Reset, configuration and faults -/

/-- 70_reset_and_hazards.md section 1 (R200, the spec's own decision D18). Reset, as the initial state under any
configuration and as an event that comes to a running block (log 8), puts `buf`, `ready`, `fault` at the values of the
rule's table and leaves the configuration. -/
def Obligations.ResetPutsTheBlockInItsResetState : Prop :=
  (∀ c : Config, (State.resetWith c).buf = [] ∧ (State.resetWith c).ready = c.readyAtReset ∧
    (State.resetWith c).fault = none ∧ (State.resetWith c).cfg = c) ∧
  (∀ s es, s.cfg.valid = true → s.pending = .reset :: es →
    ∃ t, step s = .next t ∧ t.buf = [] ∧ t.ready = s.cfg.readyAtReset ∧ t.fault = none ∧ t.cfg = s.cfg)

/-- 70_reset_and_hazards.md section 1 (R201, derived in the spec from R200 and R104): a frame that straddles a reset
is lost, and its later bytes are classified afresh, as if the stream began with them. The reset values are the spec's
own decision D18, a reset as an event is log 8, and that SKIPPED carries the byte is D13. -/
def Obligations.ResetDiscardsAPartialFrame : Prop :=
  ∀ s es, s.cfg.valid = true → s.pending = .reset :: es →
    ∃ t, step s = .next t ∧ ∀ bs, t.overflows bs = false →
      ∃ u, exec (.append bs) t = .next u ∧ u.buf = bs ∧ u.fault = none ∧
        (∀ b rest, bs = b :: rest → u.cfg.kindOf b = none →
          ∃ v, exec .take u = .next v ∧ v.result = .token (.skipped b) ∧ v.buf = rest)

/-- 60_exceptions.md section 2 (R183, the spec's own decisions D2 and D11). A configuration is invalid exactly when
one of the four conditions of the rule holds; under an invalid one neither a step nor any instruction answers a next
state; and the code of the refusal is 2. That an idle step and a reset are refused too is log 6. -/
def Obligations.InvalidConfigurationHasNoStep : Prop :=
  (∀ c : Config, c.valid = false ↔
    ((¬ ((∀ j < 16, c.permAt j < 16) ∧ ∀ i < 16, ∀ j < 16, c.permAt i = c.permAt j → i = j)) ∨
      ¬ (c.opButtonUp ≠ c.opPadDown ∧ c.opButtonUp ≠ c.opPadUp ∧ c.opButtonUp ≠ c.opDialChange ∧
        c.opPadDown ≠ c.opPadUp ∧ c.opPadDown ≠ c.opDialChange ∧ c.opPadUp ≠ c.opDialChange) ∨
      (∃ op ∈ [c.opButtonUp, c.opPadDown, c.opPadUp, c.opDialChange], op.toNat < 0x03 ∨ 0x08 < op.toNat) ∨
      (∃ cap, c.bufCap = some cap ∧ cap < 257))) ∧
  (∀ s : State, s.cfg.valid = false →
    step s = .refused .configInvalid ∧ ∀ i, exec i s = .refused .configInvalid) ∧
  FaultReason.configInvalid.code = 2

/-- 60_exceptions.md section 2 (R185, the spec's own decision D11). While `fault` is set no instruction has a step, in
a valid configuration the machine is stuck, and the one step that goes on is reset, which clears `fault`. That a step
with nothing presented is a step, and stops as stuck here, is the model's choice, log 7; a reset as an event is log 8.
-/
def Obligations.FaultIsStickyUntilReset : Prop :=
  ∀ s r, s.fault = some r →
    (∀ i t, exec i s ≠ .next t) ∧
    (∀ t, step s = .next t → (∃ es, s.pending = .reset :: es) ∧ t.fault = none) ∧
    (s.cfg.valid = true → (∀ es, s.pending ≠ .reset :: es) → step s = .fault (.stuck r)) ∧
    (s.cfg.valid = true → ∀ es, s.pending = .reset :: es → ∃ t, step s = .next t ∧ t.fault = none)

/-- 60_exceptions.md section 2 (R184, the spec's own decision D22; that the step answers a next state is log 5). A
presented command code 0xD, 0xE or 0xF sets the record ReservedCommand and writes no other state (the field `result`
is the interface, and there is none); nothing but reset runs after it; its code is 3. The codes are the spec's own
decision D15, and that nothing runs afterwards is D11. -/
def Obligations.ReservedCommandIsRefusedForGood : Prop :=
  (∀ s r, s.Live → 0xD ≤ r.cmd.toNat →
    exec (decodeCommand r) s = .next { s with fault := some .reservedCommand, result := .none } ∧
    ∀ i, exec i { s with fault := some .reservedCommand, result := .none } = .fault (.stuck .reservedCommand)) ∧
  (∀ s, s.Live → ∀ i ∈ [Instr.reservedD, .reservedE, .reservedF],
    exec i s = .next { s with fault := some .reservedCommand, result := .none }) ∧
  FaultReason.reservedCommand.code = 3

/-- 60_exceptions.md section 2 (the order of R186, the spec's own decision D22): an invalid configuration comes before
everything, a reserved command code is recorded as such whatever its operand ports hold and however full the buffer
is, only then comes overflow, and within TAKE no fault arises. That the overflow fault is there at all is the spec's
own decision D11, that a raising transaction answers a next state is log 5. -/
def Obligations.FaultsComeInTheFixedOrder : Prop :=
  ∀ s : State,
    (s.cfg.valid = false → ∀ i, exec i s = .refused .configInvalid) ∧
    (s.Live → ∀ r : Request, 0xD ≤ r.cmd.toNat → s.overflows r.bytes = true →
      ∃ t, exec (decodeCommand r) s = .next t ∧ t.fault = some .reservedCommand) ∧
    (s.Live → ∀ bs, s.overflows bs = true →
      ∃ t, exec (.append bs) s = .next t ∧ t.fault = some (.bufferOverflow s.buf.length bs.length)) ∧
    (s.Live → ∃ t, exec .take s = .next t ∧ t.fault = none)

/-- 60_exceptions.md sections 1 and 2 (R180: ordinary outcomes set no fault; R182, R184 name the causes): an
instruction that leaves a fault recorded is a reserved command or an APPEND that overflows. The two faults are the
spec's own decisions D11 and D22, and that they are recorded in a next state is log 5. -/
def Obligations.OnlyOverflowAndReservedCodesFault : Prop :=
  ∀ i s t, exec i s = .next t → t.fault ≠ none →
    (i ∈ [Instr.reservedD, .reservedE, .reservedF] ∧ t.fault = some .reservedCommand) ∨
    (∃ bs cap, i = .append bs ∧ s.cfg.bufCap = some cap ∧ cap < s.buf.length + bs.length ∧
      t.fault = some (.bufferOverflow s.buf.length bs.length))

/-- 10_state.md section 2 (R24) and R200: neither an instruction nor a step, reset among them, writes the
configuration. Reset is the spec's own decision D18, and as an event log 8. -/
def Obligations.ConfigurationIsNeverWritten : Prop :=
  (∀ i s t, exec i s = .next t → t.cfg = s.cfg) ∧ (∀ s t, step s = .next t → t.cfg = s.cfg)

/-! ### Steps -/

/-- A step runs the instruction that the presented command decodes to (30_encoding.md section 5, the spec's own
decision D15; the queue and the operand ports are log 1 and log 11), or that the presented outbound frame is. That a
step of the model runs an outbound frame, which the block does not send (30_encoding.md section 3), is the model's
choice, log 10. Either way it runs in the state without that event in the queue. -/
def Obligations.StepRunsThePresentedInstruction : Prop :=
  (∀ s r es, s.pending = .command r :: es → step s = exec (decodeCommand r) { s with pending := es }) ∧
  (∀ s o es, s.pending = .send o :: es → step s = exec o.toInstr { s with pending := es })

/-- A step that takes a TAKE runs what the decoder reads at the head of `buf` (R102): the frame's instruction, or
SKIP. A frame as an instruction is log 9, the queue log 1, the code of TAKE the spec's own decision D15. -/
def Obligations.TakeRunsWhatStandsAtTheHead : Prop :=
  ∀ s i rest, decode s.cfg (.inbound s.buf) = .ok (i, rest) →
    exec .take s = exec i s ∧
    (∀ es, step { s with pending := .command { cmd := 0x1 } :: es } = exec i { s with pending := es })

/-- 60_exceptions.md section 4 (R193: 'Between transactions the block holds `buf`, `ready` and `fault` unchanged').
That a step with nothing presented is taken at all is the model's choice, log 7. -/
def Obligations.IdleStepHoldsTheState : Prop :=
  ∀ s : State, s.Live → s.pending = [] → step s = .next s

/-- The invariant (R31 iii, R183) holds after reset, under every valid configuration. The reset values are the spec's
own decision D18, and the configuration of `State.reset` is log 2. -/
def Obligations.ResetMeetsTheInvariant : Prop :=
  (∀ c : Config, c.valid = true → (State.resetWith c).Inv) ∧ State.reset.Inv

/-- Every step keeps the invariant: the configuration stays valid and the buffer within `BUF_CAP` (R31 iii, R42). The
bound on `buf` is the spec's own decision D11; among the steps are those that are the model's choice, log 7, log 8 and
log 10. -/
def Obligations.EveryStepKeepsTheInvariant : Prop :=
  (∀ s t, s.Inv → step s = .next t → t.Inv) ∧ (∀ i s t, s.Inv → exec i s = .next t → t.Inv)

/-- R31. Under every transaction that does not raise a fault: (i) `ready` is false or true and (ii) every element of
`buf` is a byte (both by their types), (iii) the buffer stays within a bounded `BUF_CAP`, and (iv) bytes are added
only at the tail, by APPEND, and removed only from the head, by TAKE (or the frame or byte it takes). A frame or SKIP
as an instruction is log 9. -/
def Obligations.BufferChangesOnlyAtItsEnds : Prop :=
  ∀ i s t, exec i s = .next t → t.fault = none →
    (t.ready = false ∨ t.ready = true) ∧ (∀ b ∈ t.buf, b.toNat ≤ 255) ∧ (s.BufFits → t.BufFits) ∧
    ((∃ bs, i = .append bs ∧ t.buf = s.buf ++ bs) ∨
      ((i = .take ∨ (∃ f, i = Frame.toInstr f) ∨ ∃ b, i = .skip b) ∧ ∃ n, t.buf = s.buf.drop n) ∨
      t.buf = s.buf)

/-! ### APPEND -/

/-- 40_frame_decoder.md section 2 and 60_exceptions.md section 2 (R100 and R182, whose overflow is the spec's own
decision D11). APPEND adds its bytes at the tail and writes nothing else; where `BUF_CAP` is bounded and would be
exceeded it records BufferOverflow with the two lengths, code 1, and leaves `buf` and `ready`; an empty APPEND to a
buffer within its capacity changes nothing. The command code is the spec's own decision D15, and that the overflow
answers a next state is log 5. -/
def Obligations.AppendAddsAtTheTailOrOverflows : Prop :=
  (∀ r : Request, r.cmd = 0x0 → decodeCommand r = .append r.bytes) ∧
  (∀ s bs, s.Live → (∀ cap, s.cfg.bufCap = some cap → s.buf.length + bs.length ≤ cap) →
    exec (.append bs) s = .next { s with buf := s.buf ++ bs, result := .none }) ∧
  (∀ s bs cap, s.Live → s.cfg.bufCap = some cap → cap < s.buf.length + bs.length →
    exec (.append bs) s =
      .next { s with fault := some (.bufferOverflow s.buf.length bs.length), result := .none }) ∧
  (∀ s, s.Live → s.BufFits → exec (.append []) s = .next { s with result := .none }) ∧
  (∀ held incoming, (FaultReason.bufferOverflow held incoming).code = 1)

/-- 20_memory.md section 2 (R43): a later APPEND's bytes follow an earlier one's, so two APPENDs leave what one of
both operands leaves. -/
def Obligations.AppendsFollowEachOther : Prop :=
  ∀ s as bs, s.Live → s.overflows (as ++ bs) = false →
    ∃ t, exec (.append as) s = .next t ∧ exec (.append bs) t = exec (.append (as ++ bs)) s ∧
      ∃ u, exec (.append bs) t = .next u ∧ u.buf = s.buf ++ as ++ bs

/-! ### TAKE -/

/-- R103. TAKE with an empty buffer returns INCOMPLETE and changes no state, whatever `ready` is. The command code is
the spec's own decision D15. -/
def Obligations.TakeOfAnEmptyBufferIsIncomplete : Prop :=
  (∀ r : Request, r.cmd = 0x1 → decodeCommand r = .take) ∧
  ∀ s : State, s.Live → s.buf = [] → exec .take s = .next { s with result := .token .incomplete }

/-- R104. TAKE on an unrecognised head byte consumes exactly that byte and returns SKIPPED with it, whatever `ready`
is and whatever follows; the table's SKIP row is that; and a run of k unrecognised bytes takes k TAKEs, each returning
SKIPPED in stream order. That the token carries the byte is the spec's own decision D13. The command code is the
spec's own decision D15, SKIP as an instruction is log 9, and DRAIN as a function log 17. -/
def Obligations.TakeSkipsOneUnrecognisedByte : Prop :=
  (∀ r : Request, r.cmd = 0x1 → decodeCommand r = .take) ∧
  (∀ s b rest, s.Live → s.buf = b :: rest → s.cfg.kindOf b = none →
    exec .take s = .next { s with buf := rest, result := .token (.skipped b) } ∧
    exec (.skip b) s = .next { s with buf := rest, result := .token (.skipped b) }) ∧
  (∀ s bs, s.Live → s.buf = bs → (∀ b ∈ bs, s.cfg.kindOf b = none) →
    drain s = (bs.map Token.skipped, { s with buf := [], result := .token .incomplete }))

/-- R105. TAKE on a DEBUG frame: with 2 + L bytes present it consumes them, returns FRAME whatever `ready` is, and
sets `ready` by the marker (the gate R112, R113, the spec's own decision D10); with fewer it is INCOMPLETE and every
byte stays. The command code is the spec's own decision D15, and the frame as an instruction is log 9. -/
def Obligations.TakeOfADebugFrame : Prop :=
  (∀ r : Request, r.cmd = 0x1 → decodeCommand r = .take) ∧
  (∀ s len msg rest, s.Live → s.buf = 0x00 :: len :: (msg ++ rest) → msg.length = len.toNat →
    ∀ i ∈ [Instr.take, .debug msg], exec i s = .next { s with
      buf := rest, ready := (s.ready || s.cfg.marker.accepts msg), result := .token (.frame (.debug msg)) }) ∧
  (∀ s, s.Live → s.buf = [0x00] → exec .take s = .next { s with result := .token .incomplete }) ∧
  (∀ s len body, s.Live → s.buf = 0x00 :: len :: body → body.length < len.toNat →
    exec .take s = .next { s with result := .token .incomplete })

/-- R106. TAKE on a SYNCGRID frame: nine bytes, reported through the gate (R112, the spec's own decisions D10 and
D13); fewer are INCOMPLETE. The command code is the spec's own decision D15, and the frame as an instruction is log 9.
-/
def Obligations.TakeOfASyncgridFrame : Prop :=
  (∀ r : Request, r.cmd = 0x1 → decodeCommand r = .take) ∧
  (∀ s w rest, s.Live → s.buf = 0x01 :: (w.toList ++ rest) →
    ∀ i ∈ [Instr.take, .syncgrid w], exec i s = .next { s with
      buf := rest, result := .token (if s.ready then .frame (.syncgrid w) else .discarded (.syncgrid w)) }) ∧
  (∀ s body, s.Live → s.buf = 0x01 :: body → body.length < 8 →
    exec .take s = .next { s with result := .token .incomplete })

/-- R107 to R110. TAKE on the four frames of one payload byte: two bytes, any payload value passed through (for a slot
above 63 the spec's own decision D14), reported through the gate (R112, the spec's own decisions D10 and D13); the
opcode alone is INCOMPLETE. The command code is the spec's own decision D15, and a frame as an instruction is log 9.
-/
def Obligations.TakeOfTheOneByteFrames : Prop :=
  (∀ r : Request, r.cmd = 0x1 → decodeCommand r = .take) ∧
  ∀ s x rest op f, s.Live →
    (op, f) ∈ [((0x02 : Byte), Frame.buttondown x), (s.cfg.opButtonUp, .buttonup x), (s.cfg.opPadDown, .padDown x),
      (s.cfg.opPadUp, .padUp x)] →
    (s.buf = op :: x :: rest → ∀ i ∈ [Instr.take, f.toInstr], exec i s = .next { s with
      buf := rest, result := .token (if s.ready then .frame f else .discarded f) }) ∧
    (s.buf = [op] → exec .take s = .next { s with result := .token .incomplete })

/-- R111. TAKE on a DIALCHANGE frame: three bytes, dial id then value, reported through the gate (R112, the spec's own
decisions D10 and D13); fewer are INCOMPLETE. The command code is the spec's own decision D15, and the frame as an
instruction is log 9. -/
def Obligations.TakeOfADialchangeFrame : Prop :=
  (∀ r : Request, r.cmd = 0x1 → decodeCommand r = .take) ∧
  (∀ s dial value rest, s.Live → s.buf = s.cfg.opDialChange :: dial :: value :: rest →
    ∀ i ∈ [Instr.take, .dialchange dial value], exec i s = .next { s with
      buf := rest,
      result := .token (if s.ready then .frame (.dialchange dial value) else .discarded (.dialchange dial value)) }) ∧
  (∀ s body, s.Live → s.buf = s.cfg.opDialChange :: body → body.length < 2 →
    exec .take s = .next { s with result := .token .incomplete })

/-- 40_frame_decoder.md section 4 (R112, the spec's own decisions D10 and D13). The gate, for every frame that stands
at the head: a DEBUG frame is returned as FRAME and sets `ready` exactly when `ready` is false and the marker accepts
its message; any other frame is FRAME when `ready` and DISCARDED when not, `ready` unchanged; either way the frame has
left `buf`. -/
def Obligations.GateReportsFramesByReadiness : Prop :=
  ∀ s f, s.Live → decodeHead s.cfg s.buf = .frame f →
    ∃ t, exec .take s = .next t ∧ t.buf = s.buf.drop f.length ∧ t.cfg = s.cfg ∧ t.fault = none ∧
      (∀ msg, f = .debug msg → t.result = .token (.frame f) ∧
        t.ready = if !s.ready && s.cfg.marker.accepts msg then true else s.ready) ∧
      ((∀ msg, f ≠ .debug msg) → t.ready = s.ready ∧
        t.result = .token (if s.ready then .frame f else .discarded f))

/-- 40_frame_decoder.md section 4 (R113, the spec's own decision D10). `ready` changes in one way only: from false to
true, by a TAKE that completes a DEBUG frame whose message the marker accepts, itself reported as FRAME; such a TAKE
does change it; it stays true until reset; while it is true no frame is DISCARDED; and the default marker is a message
whose last byte is 0x0A. DISCARDED as a token is the spec's own decision D13, DEBUG as an instruction log 9, and a
reset as an event log 8. -/
def Obligations.ReadyIsSetByTheMarkerOnly : Prop :=
  (∀ i s t, exec i s = .next t → t.ready ≠ s.ready → s.ready = false ∧ t.ready = true ∧
    ∃ msg, s.cfg.marker.accepts msg = true ∧ t.result = .token (.frame (.debug msg)) ∧
      (i = .debug msg ∨ (i = .take ∧ decodeHead s.cfg s.buf = .frame (.debug msg)))) ∧
  (∀ s msg, s.Live → s.ready = false → decodeHead s.cfg s.buf = .frame (.debug msg) →
    s.cfg.marker.accepts msg = true → ∃ t, exec .take s = .next t ∧ t.ready = true) ∧
  (∀ s t, s.ready = true → (∀ es, s.pending ≠ .reset :: es) → step s = .next t → t.ready = true) ∧
  (∀ i s t, s.ready = true → exec i s = .next t → ∀ f, t.result ≠ .token (.discarded f)) ∧
  (∀ msg, ReadyMarker.newlineTerminated.accepts msg = true ↔ ∃ start, msg = start ++ [0x0A])

/-- R114. A TAKE returns INCOMPLETE in exactly the three cases of the rule, and then it writes no state. -/
def Obligations.IncompleteInExactlyThreeCases : Prop :=
  ∀ s : State, s.Live →
    ((∃ t, exec .take s = .next t ∧ t.result = .token .incomplete) ↔
      (s.buf = [] ∨ s.buf = [0x00] ∨ ∃ n, frameLen s.cfg s.buf = some n ∧ s.buf.length < n)) ∧
    (∀ t, exec .take s = .next t → t.result = .token .incomplete →
      t = { s with result := .token .incomplete })

/-- 20_memory.md section 3 (R49): INCOMPLETE is idempotent, so repeated INCOMPLETE TAKEs with no APPEND between them
return INCOMPLETE every time. -/
def Obligations.IncompleteTakeIsIdempotent : Prop :=
  ∀ s t, exec .take s = .next t → t.result = .token .incomplete → exec .take t = .next t

/-- 20_memory.md sections 3 and 5 (R48, R51 c and d), over every state in which a TAKE has a step: it never raises,
writes only `buf`, `ready` and its token, and the bytes it removes from the head are exactly the bytes of the token it
returns, none for INCOMPLETE and at least one for any other. What DISCARDED and SKIPPED carry is the spec's own
decision D13. -/
def Obligations.TakeRemovesExactlyItsTokensBytes : Prop :=
  ∀ s : State, s.Live → ∃ tok t, exec .take s = .next t ∧
    t = { s with buf := t.buf, ready := t.ready, result := .token tok } ∧
    s.buf = tokenBytes s.cfg tok ++ t.buf ∧ (tok ≠ .incomplete → t.buf.length < s.buf.length)

/-- 40_frame_decoder.md section 5 (the reason given in R118): 'a non-INCOMPLETE TAKE depends only on the bytes it
consumes', so bytes added at the tail change neither its token nor what it does. -/
def Obligations.BytesAtTheTailDoNotChangeATake : Prop :=
  ∀ s t more, exec .take s = .next t → t.result ≠ .token .incomplete →
    exec .take { s with buf := s.buf ++ more } = .next { t with buf := t.buf ++ more }

/-! ### DRAIN and FEED -/

/-- 40_frame_decoder.md section 5 (R115, R116, derived in the spec): DRAIN ends with a TAKE that returned INCOMPLETE,
after at most `len(buf)` tokens, in a state that can still run. DRAIN as a function is log 17. -/
def Obligations.DrainEndsWithIncomplete : Prop :=
  ∀ s : State, s.Live → (drain s).2.result = .token .incomplete ∧ (drain s).1.length ≤ s.buf.length ∧
    (∀ t ∈ (drain s).1, t ≠ .incomplete) ∧ (drain s).2.Live ∧ (drain s).2.cfg = s.cfg

/-- R117. The tokens of a DRAIN, in order and with the gate's verdict taken off, are a left-to-right parse of `buf`
into frames and unrecognised single bytes up to an incomplete tail, which is what stays in `buf`; and it is the unique
one. What DISCARDED and SKIPPED carry is the spec's own decision D13, and DRAIN as a function is log 17. -/
def Obligations.DrainReturnsTheUniqueParse : Prop :=
  ∀ s : State, s.Live →
    IsParse s.cfg s.buf ((drain s).1.map bareToken) (drain s).2.buf ∧
    ∀ items tail, IsParse s.cfg s.buf items tail →
      items = (drain s).1.map bareToken ∧ tail = (drain s).2.buf

/-- 40_frame_decoder.md section 5 (R118, derived in the spec): chunk invariance. For every split of a byte sequence
into one or more chunks, each possibly empty, the DRAIN results of feeding them one by one are those of feeding the
whole, and `buf` and `ready` end the same, where `BUF_CAP` is not exceeded. That it covers every token is the spec's
own decision D20, and FEED as a function is log 17. -/
def Obligations.ChunkingDoesNotChangeTheTokens : Prop :=
  ∀ s chunks, s.Live → chunks ≠ [] →
    (∀ cap, s.cfg.bufCap = some cap → s.buf.length + chunks.flatten.length ≤ cap) →
    (feedAll chunks s).1 = (feed chunks.flatten s).1 ∧
    (feedAll chunks s).2.buf = (feed chunks.flatten s).2.buf ∧
    (feedAll chunks s).2.ready = (feed chunks.flatten s).2.ready ∧
    (feedAll chunks s).2.fault = none ∧ (feed chunks.flatten s).2.fault = none

/-- 40_frame_decoder.md section 5 (R119, derived in the spec): after a DRAIN the buffer is empty or a proper prefix of
one frame, at most 256 bytes, so an APPEND of at most K bytes after it leaves at most 256 + K. DRAIN as a function is
log 17. -/
def Obligations.DrainLeavesAtMost256Bytes : Prop :=
  ∀ s : State, s.Live →
    ((drain s).2.buf = [] ∨ ∃ op rest, (drain s).2.buf = op :: rest ∧ s.cfg.kindOf op ≠ none ∧
      ∀ n, frameLen s.cfg (drain s).2.buf = some n → (drain s).2.buf.length < n) ∧
    (drain s).2.buf.length ≤ 256 ∧
    (∀ bs t, exec (.append bs) (drain s).2 = .next t → t.buf.length ≤ 256 + bs.length)

/-! ### Encodings -/

/-- R61. Under a valid configuration the recognised opcodes are exactly seven, one for each kind, three of them fixed.
-/
def Obligations.RecognisedOpcodesAreExactlySeven : Prop :=
  ∀ c : Config, c.valid = true →
    (∀ op k, c.kindOf op = some k ↔ op = c.opcode k) ∧ (∀ j k, c.opcode j = c.opcode k → j = k) ∧
    c.opcode .debug = 0x00 ∧ c.opcode .syncgrid = 0x01 ∧ c.opcode .buttondown = 0x02 ∧
    c.opcode .buttonup = c.opButtonUp ∧ c.opcode .padDown = c.opPadDown ∧ c.opcode .padUp = c.opPadUp ∧
    c.opcode .dialchange = c.opDialChange ∧
    ((List.range 256).filter fun n => (c.kindOf (BitVec.ofNat 8 n)).isSome).length = 7

/-- 30_encoding.md section 4 (R74, its first two sentences): the unrecognised values are 0x09 to 0xFF and exactly two
of 0x03 to 0x08, the two that none of the four parameters takes. -/
def Obligations.UnrecognisedOpcodesAreTheRest : Prop :=
  ∀ c : Config, c.valid = true →
    (∀ op : Byte, 0x09 ≤ op.toNat → c.kindOf op = none) ∧
    (∀ op : Byte, 0x03 ≤ op.toNat → op.toNat ≤ 0x08 →
      (c.kindOf op = none ↔ op ∉ [c.opButtonUp, c.opPadDown, c.opPadUp, c.opDialChange])) ∧
    ((List.range 9).filter fun n => (c.kindOf (BitVec.ofNat 8 n)).isNone).length = 2

/-- R62 and R75. The frame length is told from the opcode byte alone but for DEBUG, which needs the byte after it, and is
2 + L, 9, 2, 2, 2, 2 or 3; without them it is not defined. A TAKE of a whole frame removes exactly its length, and `ready`
never changes what a TAKE removes. -/
def Obligations.FrameLengthsAreThoseOfTheTable : Prop :=
  (∀ c : Config, c.valid = true →
    frameLen c [] = none ∧ frameLen c [0x00] = none ∧
    (∀ op rest, c.kindOf op = none → frameLen c (op :: rest) = none) ∧
    (∀ rest : List Byte,
      (∀ len : Byte, frameLen c (0x00 :: len :: rest) = some (2 + len.toNat) ∧ 2 + len.toNat ≤ 257) ∧
      frameLen c (0x01 :: rest) = some 9 ∧ frameLen c (0x02 :: rest) = some 2 ∧
      frameLen c (c.opButtonUp :: rest) = some 2 ∧ frameLen c (c.opPadDown :: rest) = some 2 ∧
      frameLen c (c.opPadUp :: rest) = some 2 ∧ frameLen c (c.opDialChange :: rest) = some 3)) ∧
  (∀ s n, s.Live → frameLen s.cfg s.buf = some n → n ≤ s.buf.length →
    ∃ t, exec .take s = .next t ∧ t.buf = s.buf.drop n) ∧
  (∀ s ready, s.Live → ∃ t u, exec .take s = .next t ∧ exec .take { s with ready := ready } = .next u ∧ u.buf = t.buf)

/-- 30_encoding.md section 2 (R64 to R70; that any payload byte is passed through is the spec's own decisions D14 and
D21). Every inbound format, with any payload bytes and whatever follows it, decodes to its frame. -/
def Obligations.EveryInboundFormatDecodes : Prop :=
  ∀ c : Config, c.valid = true → ∀ rest : List Byte,
    (∀ (len : Byte) msg, msg.length = len.toNat →
      decode c (.inbound (0x00 :: len :: (msg ++ rest))) = .ok (.debug msg, rest)) ∧
    (∀ w0 w1 w2 w3 w4 w5 w6 w7 : Byte,
      decode c (.inbound ([0x01, w0, w1, w2, w3, w4, w5, w6, w7] ++ rest)) =
        .ok (.syncgrid #v[w0, w1, w2, w3, w4, w5, w6, w7], rest)) ∧
    (∀ x : Byte, decode c (.inbound (0x02 :: x :: rest)) = .ok (.buttondown x, rest) ∧
      decode c (.inbound (c.opButtonUp :: x :: rest)) = .ok (.buttonup x, rest) ∧
      decode c (.inbound (c.opPadDown :: x :: rest)) = .ok (.padDown x, rest) ∧
      decode c (.inbound (c.opPadUp :: x :: rest)) = .ok (.padUp x, rest)) ∧
    (∀ dial value : Byte, decode c (.inbound (c.opDialChange :: dial :: value :: rest)) =
      .ok (.dialchange dial value, rest))

/-- 30_encoding.md section 5 (R63, the spec's own decision D15). Each command code selects its transaction, with the
operand the rule's table gives it, and the transaction returns the kind of result the table gives it. One port for
each kind of operand is log 11, and the field `result` log 4. -/
def Obligations.CommandCodesSelectTheirTransactions : Prop :=
  (∀ bs w g, decodeCommand ⟨0x0, bs, w, g⟩ = .append bs ∧ decodeCommand ⟨0x1, bs, w, g⟩ = .take ∧
    decodeCommand ⟨0x2, bs, w, g⟩ = .unpack w ∧ decodeCommand ⟨0x3, bs, w, g⟩ = .pack g ∧
    decodeCommand ⟨0x4, bs, w, g⟩ = .invert g ∧ decodeCommand ⟨0x5, bs, w, g⟩ = .rotl g ∧
    decodeCommand ⟨0x6, bs, w, g⟩ = .rotr g ∧ decodeCommand ⟨0x7, bs, w, g⟩ = .flipv g ∧
    decodeCommand ⟨0x8, bs, w, g⟩ = .fliph g ∧ decodeCommand ⟨0x9, bs, w, g⟩ = .shl g ∧
    decodeCommand ⟨0xA, bs, w, g⟩ = .shr g ∧ decodeCommand ⟨0xB, bs, w, g⟩ = .shu g ∧
    decodeCommand ⟨0xC, bs, w, g⟩ = .shd g ∧ decodeCommand ⟨0xD, bs, w, g⟩ = .reservedD ∧
    decodeCommand ⟨0xE, bs, w, g⟩ = .reservedE ∧ decodeCommand ⟨0xF, bs, w, g⟩ = .reservedF) ∧
  (∀ s r t, exec (decodeCommand r) s = .next t →
    (r.cmd = 0x0 → t.result = .none) ∧ (r.cmd = 0x1 → ∃ k, t.result = .token k) ∧
    (r.cmd = 0x2 → ∃ g, t.result = .grid g) ∧ (r.cmd = 0x3 → ∃ w, t.result = .wire w) ∧
    (0x4 ≤ r.cmd.toNat → r.cmd.toNat ≤ 0xC → ∃ g, t.result = .grid g) ∧
    (0xD ≤ r.cmd.toNat → t.result = .none))

/-- Decoding and encoding agree: for every well-formed instruction of the table, under every valid configuration, the
decoder reads its encoding back, every operand whole, and reads an inbound one back whatever bytes follow. The command
codes are the spec's own decision D15, and the operand ports log 11. -/
def Obligations.DecodeOfEncodeIsTheInstruction : Prop :=
  ∀ c i, c.valid = true → wellFormed c i = true →
    decode c (encode c i) = .ok (i, []) ∧
    (∀ bs rest, encode c i = .inbound bs → decode c (.inbound (bs ++ rest)) = .ok (i, rest))

/-- The other direction: what the decoder reads from an inbound or outbound byte sequence is well formed, and the
bytes it consumed are that instruction's encoding. -/
def Obligations.EncodeOfDecodeIsTheBytes : Prop :=
  ∀ c i bs rest, c.valid = true →
    (decode c (.inbound bs) = .ok (i, rest) →
      wellFormed c i = true ∧ ∃ used, encode c i = .inbound used ∧ bs = used ++ rest) ∧
    (decode c (.outbound bs) = .ok (i, rest) →
      wellFormed c i = true ∧ ∃ used, encode c i = .outbound used ∧ bs = used ++ rest)

/-- Words written out from the spec's encodings under `REFCFG` (R7; the bytes of 95_test_vectors.md T8, T12, T15, E2
and E4) decode to the instructions they stand for, and so do command codes. The table words are read as log 12 says,
and the command codes are the spec's own decision D15. -/
def Obligations.WrittenWordsDecode : Prop :=
  decode Config.ref (.inbound [0x00, 0x03, 0x61, 0x62, 0x63]) = .ok (.debug [0x61, 0x62, 0x63], []) ∧
  decode Config.ref (.inbound [0x01, 0x12, 0x34, 0x56, 0x78, 0x9A, 0xBC, 0xDE, 0xF0]) =
    .ok (.syncgrid #v[0x12, 0x34, 0x56, 0x78, 0x9A, 0xBC, 0xDE, 0xF0], []) ∧
  decode Config.ref (.inbound [0x04, 0x40]) = .ok (.padDown 64, []) ∧
  decode Config.ref (.inbound [0x08, 0x02, 0xFF]) = .ok (.dialchange 2 255, []) ∧
  decode Config.ref (.inbound [0x09, 0x02, 0x07]) = .ok (.skip 0x09, [0x02, 0x07]) ∧
  decode Config.ref (.outbound [0x05]) = .ok (.syncExit, []) ∧
  decodeTableWord 8 0x5 = some (.rotl 0) ∧ decodeTableWord 8 0xC = some (.shd 0) ∧
  decodeTableWord 8 0xD = some .reservedD ∧ decodeTableWord 16 0x0502 = some (.buttondown 5)

/-! ### Grid codec -/

/-- R133. UNPACK returns, and writes no state, the grid whose cell `4j + b` is wire bit `4·PERM[j] + b`, in either bit
order; all zeros give the empty grid and all ones the full one; and 0xFF in byte k with zeros elsewhere gives exactly
the two logical groups that `PERM` takes from wire groups 2k and 2k + 1. The reading of the table is the spec's own
decision D5, that of the payload bytes D6, and the command code D15. -/
def Obligations.UnpackReadsTheWireThroughTheTable : Prop :=
  (∀ r : Request, r.cmd = 0x2 → decodeCommand r = .unpack r.wire) ∧
  (∀ s w, s.Live → ∃ g, exec (.unpack w) s = .next { s with result := .grid g } ∧
    (∀ j b, j < 16 → b < 4 → ∀ k i, 8 * k + i = 4 * s.cfg.permAt j + b → i < 8 →
      g.getLsbD (4 * j + b) = match s.cfg.bitOrder with
        | .lsbFirst => (w.toList.getD k 0).getLsbD i
        | .msbFirst => (w.toList.getD k 0).getLsbD (7 - i)) ∧
    (w = Vector.replicate 8 0x00 → g = 0) ∧ (w = Vector.replicate 8 0xFF → g = 0xFFFFFFFFFFFFFFFF) ∧
    (∀ k < 8, (∀ i < 8, w.toList.getD i 0 = if i = k then 0xFF else 0x00) → ∀ j b, j < 16 → b < 4 →
      (g.getLsbD (4 * j + b) = true ↔ s.cfg.permAt j = 2 * k ∨ s.cfg.permAt j = 2 * k + 1)))

/-- R134. PACK returns, and writes no state, the bytes whose wire bit `4·PERM[j] + b` is cell `4j + b`, in either bit
order; the empty grid gives zero bytes and the full one 0xFF. The reading of the table is the spec's own decision D5,
that of the payload bytes D6, and the command code D15. -/
def Obligations.PackWritesTheWireThroughTheTable : Prop :=
  (∀ r : Request, r.cmd = 0x3 → decodeCommand r = .pack r.grid) ∧
  (∀ s g, s.Live → ∃ w, exec (.pack g) s = .next { s with result := .wire w } ∧
    (∀ j b, j < 16 → b < 4 → ∀ k i, 8 * k + i = 4 * s.cfg.permAt j + b → i < 8 →
      (match s.cfg.bitOrder with
        | .lsbFirst => (w.toList.getD k 0).getLsbD i
        | .msbFirst => (w.toList.getD k 0).getLsbD (7 - i)) = g.getLsbD (4 * j + b)) ∧
    (g = 0 → w = Vector.replicate 8 0x00) ∧ (g = 0xFFFFFFFFFFFFFFFF → w = Vector.replicate 8 0xFF))

/-- 41_grid_codec.md section 4 (R135; its second half is derived in the spec): under a valid configuration UNPACK
undoes PACK on every grid and PACK undoes UNPACK on every eight bytes, run as two transactions. -/
def Obligations.CodecRoundTrips : Prop :=
  ∀ s : State, s.Live →
    (∀ g, ∃ w t, exec (.pack g) s = .next t ∧ t.result = .wire w ∧
      exec (.unpack w) t = .next { s with result := .grid g }) ∧
    (∀ w, ∃ g t, exec (.unpack w) s = .next t ∧ t.result = .grid g ∧
      exec (.pack g) t = .next { s with result := .wire w })

/-- 41_grid_codec.md section 4 (R138, derived in the spec; the source's SYNCGRID example): the frame with payload 0xFF
and seven zeros, taken from the buffer and unpacked, gives the grid whose set cells are exactly the eight of the two
logical groups that `PERM` takes from wire groups 0 and 1, under either bit order. The reading of the table is the
spec's own decision D5, that of the payload bytes D6, and the gate is D10. -/
def Obligations.SyncgridOfOneFullByteDecodes : Prop :=
  ∀ s rest, s.Live → s.ready = true → s.buf = [0x01, 0xFF, 0, 0, 0, 0, 0, 0, 0] ++ rest →
    ∃ w t g, exec .take s = .next t ∧ t.result = .token (.frame (.syncgrid w)) ∧ t.buf = rest ∧
      exec (.unpack w) t = .next { t with result := .grid g } ∧
      (∀ j b, j < 16 → b < 4 → (g.getLsbD (4 * j + b) = true ↔ s.cfg.permAt j = 0 ∨ s.cfg.permAt j = 1)) ∧
      setCells g = 8

/-- R71, R72 and R73. The outbound formats: 0x01 and the eight bytes PACK returns, nine in all; 0x05; 0x06. A grid
update that is echoed back decodes as the SYNCGRID frame of those bytes, which UNPACK turns into the grid again. -/
def Obligations.OutboundFormats : Prop :=
  (∀ s g, s.Live → ∃ w, exec (.pack g) s = .next { s with result := .wire w } ∧
    outboundBytes s.cfg (.gridUpdate g) = 0x01 :: w.toList ∧ (outboundBytes s.cfg (.gridUpdate g)).length = 9 ∧
    decode s.cfg (.inbound (outboundBytes s.cfg (.gridUpdate g))) = .ok (.syncgrid w, []) ∧
    unpackWire s.cfg w = g) ∧
  (∀ c, outboundBytes c .syncExit = [0x05]) ∧ (∀ c, outboundBytes c .syncEnter = [0x06])

/-- 30_encoding.md sections 3 and 6 (R71 to R73, R79). The outbound rows of the table complete in every state that can
run: they return the frame's bytes and write no state; SENDGRID is GRID_UPDATE. That a step of the model assembles
them is the model's choice, log 10. SENDGRID as a function is log 17. -/
def Obligations.OutboundFramesAreAssembled : Prop :=
  ∀ s : State, s.Live →
    (∀ g, exec (.gridUpdate g) s =
      .next { s with result := .sent (outboundBytes s.cfg (.gridUpdate g)) } ∧
      sendGrid g s = some (outboundBytes s.cfg (.gridUpdate g))) ∧
    exec .syncExit s = .next { s with result := .sent [0x05] } ∧
    exec .syncEnter s = .next { s with result := .sent [0x06] }

/-! ### Grid transforms -/

/-- R150. Every transform answers a next state whatever the block's state is, with a result that depends on its
operand grid alone, and writes only that result. -/
def Obligations.TransformsReadOnlyTheirGrid : Prop :=
  ∀ x ∈ [Instr.invert, .rotl, .rotr, .flipv, .fliph, .shl, .shr, .shu, .shd], ∀ g,
    ∃ g', ∀ s, s.Live → exec (x g) s = .next { s with result := .grid g' }

/-- R151. INVERT complements every cell. The command code is the spec's own decision D15. -/
def Obligations.InvertComplementsEveryCell : Prop :=
  (∀ r : Request, r.cmd = 0x4 → decodeCommand r = .invert r.grid) ∧
  ∀ s g, s.Live → exec (.invert g) s = .next { s with result := .grid (invertGrid g) } ∧
    (∀ x y, x < 8 → y < 8 → cell (invertGrid g) x y = !cell g x y) ∧
    invertGrid g = g ^^^ 0xFFFFFFFFFFFFFFFF

/-- 42_grid_transforms.md section 2 (R152, the spec's own decision D8, and R153). ROTL turns the grid
counter-clockwise, ROTR is ROTL three times, which is the clockwise turn. Column 0 on the left is the spec's own
decision D7, and the command codes are D15. -/
def Obligations.RotationsMoveCellsByQuarterTurns : Prop :=
  (∀ r : Request, (r.cmd = 0x5 → decodeCommand r = .rotl r.grid) ∧ (r.cmd = 0x6 → decodeCommand r = .rotr r.grid)) ∧
  ∀ s g, s.Live →
    exec (.rotl g) s = .next { s with result := .grid (rotlGrid g) } ∧
    exec (.rotr g) s = .next { s with result := .grid (rotrGrid g) } ∧
    rotrGrid g = rotlGrid (rotlGrid (rotlGrid g)) ∧
    (∀ x y, x < 8 → y < 8 → cell (rotlGrid g) x y = cell g (7 - y) x ∧ cell (rotlGrid g) y (7 - x) = cell g x y ∧
      cell (rotrGrid g) x y = cell g y (7 - x) ∧ cell (rotrGrid g) (7 - y) x = cell g x y) ∧
    (g = 0 → rotlGrid g = 0) ∧ (g = 0xFFFFFFFFFFFFFFFF → rotlGrid g = 0xFFFFFFFFFFFFFFFF)

/-- R154 and R155. FLIPV reverses the rows, FLIPH reverses each row. The command codes are the spec's own decision
D15. -/
def Obligations.FlipsReverseRowsAndColumns : Prop :=
  (∀ r : Request, (r.cmd = 0x7 → decodeCommand r = .flipv r.grid) ∧ (r.cmd = 0x8 → decodeCommand r = .fliph r.grid)) ∧
  ∀ s g, s.Live →
    exec (.flipv g) s = .next { s with result := .grid (flipvGrid g) } ∧
    exec (.fliph g) s = .next { s with result := .grid (fliphGrid g) } ∧
    (∀ x y, x < 8 → y < 8 → cell (flipvGrid g) x y = cell g x (7 - y) ∧ cell (fliphGrid g) x y = cell g (7 - x) y) ∧
    (∀ y, y < 8 → row (flipvGrid g) y = row g (7 - y) ∧ row (fliphGrid g) y = (row g y).reverse)

/-- 42_grid_transforms.md section 2 (R156 to R159, the spec's own decision D9). The shifts move the contents by one
cell in the named direction, cyclically: rows rotate by one bit, the whole grid by eight. Column 0 on the left is the
spec's own decision D7, and the command codes are D15. -/
def Obligations.ShiftsRotateRowsAndColumns : Prop :=
  (∀ r : Request, (r.cmd = 0x9 → decodeCommand r = .shl r.grid) ∧ (r.cmd = 0xA → decodeCommand r = .shr r.grid) ∧
    (r.cmd = 0xB → decodeCommand r = .shu r.grid) ∧ (r.cmd = 0xC → decodeCommand r = .shd r.grid)) ∧
  ∀ s g, s.Live →
    exec (.shl g) s = .next { s with result := .grid (shlGrid g) } ∧
    exec (.shr g) s = .next { s with result := .grid (shrGrid g) } ∧
    exec (.shu g) s = .next { s with result := .grid (shuGrid g) } ∧
    exec (.shd g) s = .next { s with result := .grid (shdGrid g) } ∧
    (∀ x y, x < 8 → y < 8 → cell (shlGrid g) x y = cell g ((x + 1) % 8) y ∧
      cell (shrGrid g) x y = cell g ((x + 7) % 8) y ∧ cell (shuGrid g) x y = cell g x ((y + 1) % 8) ∧
      cell (shdGrid g) x y = cell g x ((y + 7) % 8)) ∧
    (∀ y, y < 8 → row (shlGrid g) y = (row g y).rotateRight 1 ∧ row (shrGrid g) y = (row g y).rotateLeft 1) ∧
    shuGrid g = g.rotateRight 8 ∧ shdGrid g = g.rotateLeft 8

/-- R160. The laws the source states. -/
def Obligations.TransformLawsOfTheSource : Prop :=
  ∀ g : Grid, invertGrid (invertGrid g) = g ∧ rotlGrid (rotlGrid (rotlGrid (rotlGrid g))) = g ∧
    flipvGrid (flipvGrid g) = g ∧ fliphGrid (fliphGrid g) = g ∧ shrGrid (shlGrid g) = g ∧
    rotrGrid g = rotlGrid (rotlGrid (rotlGrid g))

/-- 42_grid_transforms.md section 3 (R161, derived in the spec). The further laws: the other inverses, the eightfold
shifts, the half turn, INVERT commuting with every other transform. -/
def Obligations.FurtherTransformLaws : Prop :=
  ∀ g : Grid, shlGrid (shrGrid g) = g ∧ shdGrid (shuGrid g) = g ∧ shuGrid (shdGrid g) = g ∧
    shlGrid^[8] g = g ∧ shrGrid^[8] g = g ∧ shuGrid^[8] g = g ∧ shdGrid^[8] g = g ∧
    rotlGrid (rotrGrid g) = g ∧ rotlGrid (rotlGrid g) = flipvGrid (fliphGrid g) ∧
    rotlGrid (rotlGrid g) = fliphGrid (flipvGrid g) ∧
    ∀ f ∈ [rotlGrid, rotrGrid, flipvGrid, fliphGrid, shlGrid, shrGrid, shuGrid, shdGrid],
      invertGrid (f g) = f (invertGrid g)

/-- 42_grid_transforms.md section 3 (R161, derived in the spec). Each of the eight transforms other than INVERT keeps
the number of set cells, and INVERT turns it into the number of clear ones. -/
def Obligations.TransformsKeepTheNumberOfSetCells : Prop :=
  (∀ f ∈ [rotlGrid, rotrGrid, flipvGrid, fliphGrid, shlGrid, shrGrid, shuGrid, shdGrid], ∀ g : Grid,
    setCells (f g) = setCells g) ∧
  (∀ g : Grid, setCells (invertGrid g) + setCells g = 64)

/-- 10_state.md section 4 (R29) and 20_memory.md section 3 (R49). Frame: an UNPACK, a PACK, a transform or an outbound
frame that answers a next state leaves `cfg`, every byte of `buf`, `ready`, `fault` and the queue as they were. The
outbound frames as instructions are log 10. -/
def Obligations.CodecAndTransformsWriteNoState : Prop :=
  ∀ i s t, exec i s = .next t →
    ((∃ w, i = .unpack w) ∨ (∃ o : Outbound, i = o.toInstr) ∨
      ∃ g, i ∈ [Instr.pack g, .invert g, .rotl g, .rotr g, .flipv g, .fliph g, .shl g, .shr g, .shu g, .shd g]) →
    t.cfg = s.cfg ∧ t.buf = s.buf ∧ t.ready = s.ready ∧ t.fault = s.fault ∧ t.pending = s.pending
end

