-- ==== Sys2Proof/Laws/Grid.lean ====
section
/-! SUPPORT. Grids by their bits and cells: reading a tabulated vector, equality by cells, and the cell of each transform. -/

namespace Sys2Proof

theorem tabulate_getLsbD {n : Nat} (f : Nat → Bool) {i : Nat} (h : i < n) : (tabulate n f).getLsbD i = f i := by
  induction n with
  | zero => omega
  | succ n ih =>
    rw [tabulate, BitVec.getLsbD_cons]
    split
    · rename_i he; rw [he]
    · exact ih (by omega)

/-- Two bit vectors that are tabulated from functions that agree below the width are equal. -/
theorem tabulate_congr {n : Nat} {f f' : Nat → Bool} (h : ∀ i < n, f i = f' i) : tabulate n f = tabulate n f' :=
  BitVec.eq_of_getLsbD_eq fun i hi => by rw [tabulate_getLsbD f hi, tabulate_getLsbD f' hi, h i hi]

theorem cell_ofCells (f : Nat → Nat → Bool) {x y : Nat} (hx : x < 8) (hy : y < 8) : cell (ofCells f) x y = f x y := by
  unfold cell ofCells
  rw [tabulate_getLsbD _ (by omega), show (8 * y + x) % 8 = x by omega, show (8 * y + x) / 8 = y by omega]

theorem grid_ext {g h : Grid} (H : ∀ x y, x < 8 → y < 8 → cell g x y = cell h x y) : g = h :=
  BitVec.eq_of_getLsbD_eq fun i hi => by
    have := H (i % 8) (i / 8) (by omega) (by omega)
    simpa [cell, Nat.div_add_mod] using this

theorem ofCells_cell (g : Grid) : ofCells (cell g) = g := grid_ext fun _ _ hx hy => cell_ofCells _ hx hy

theorem row_getLsbD (g : Grid) (y : Nat) {x : Nat} (hx : x < 8) : (row g y).getLsbD x = cell g x y := by
  simp [row, cell, hx]

namespace Machine

variable (g : Grid) {x y : Nat} (hx : x < 8) (hy : y < 8)
include hx hy

theorem cell_invert : cell (invertGrid g) x y = !cell g x y := cell_ofCells _ hx hy

theorem cell_rotl : cell (rotlGrid g) x y = cell g (7 - y) x := cell_ofCells _ hx hy

theorem cell_rotr : cell (rotrGrid g) x y = cell g y (7 - x) := by
  rw [rotrGrid, cell_rotl _ hx hy, cell_rotl _ (by omega) (by omega), cell_rotl _ (by omega) (by omega),
    show 7 - (7 - y) = y by omega]

theorem cell_flipv : cell (flipvGrid g) x y = cell g x (7 - y) := cell_ofCells _ hx hy

theorem cell_fliph : cell (fliphGrid g) x y = cell g (7 - x) y := cell_ofCells _ hx hy

theorem cell_shl : cell (shlGrid g) x y = cell g ((x + 1) % 8) y := cell_ofCells _ hx hy

theorem cell_shr : cell (shrGrid g) x y = cell g ((x + 7) % 8) y := cell_ofCells _ hx hy

theorem cell_shu : cell (shuGrid g) x y = cell g x ((y + 1) % 8) := cell_ofCells _ hx hy

theorem cell_shd : cell (shdGrid g) x y = cell g x ((y + 7) % 8) := cell_ofCells _ hx hy

end Machine

end Sys2Proof
end

