-- ==== Sys2Proof/Laws/Codec.lean ====
section
/-! SUPPORT. The codec bit by bit: the table and its inverse, the wire bits that UNPACK reads and PACK writes. -/

namespace Sys2Proof

/-- What a bijective table is, entry by entry (41_grid_codec.md R136). -/
theorem Config.permBijective_iff (c : Config) : c.permBijective = true ↔
    (∀ j < 16, c.permAt j < 16) ∧ ∀ i < 16, ∀ j < 16, c.permAt i = c.permAt j → i = j := by
  have hlen : c.perm.toList.length = 16 := by simp
  have hget : ∀ j (h : j < 16), c.permAt j = c.perm.toList[j]'(by omega) := fun j h => by
    simp [Config.permAt, List.getD_eq_getElem?_getD, h]
  simp only [Config.permBijective, Bool.and_eq_true, List.all_eq_true, decide_eq_true_eq]
  constructor
  · rintro ⟨h1, h2⟩
    refine ⟨fun j hj => ?_, fun i hi j hj h => ?_⟩
    · rw [hget j hj]; exact h1 _ (List.getElem_mem _)
    · rw [hget i hi, hget j hj] at h
      exact (List.Nodup.getElem_inj_iff h2).1 h
  · rintro ⟨h1, h2⟩
    refine ⟨fun q hq => ?_, List.nodup_iff_injective_get.2 fun i j h => ?_⟩
    · obtain ⟨j, hj, rfl⟩ := List.getElem_of_mem hq
      rw [← hget j (by omega)]; exact h1 j (by omega)
    · have hi : i.val < 16 := Nat.lt_of_lt_of_eq i.isLt hlen
      have hj : j.val < 16 := Nat.lt_of_lt_of_eq j.isLt hlen
      refine Fin.ext (h2 i hi j hj ?_)
      rw [hget _ hi, hget _ hj]
      simpa using h

variable {c : Config} (hp : c.permBijective = true)
include hp

theorem Config.permAt_lt {j : Nat} (hj : j < 16) : c.permAt j < 16 := (c.permBijective_iff.1 hp).1 j hj

/-- The inverse of the table undoes the table. -/
theorem Config.permInv_permAt {j : Nat} (hj : j < 16) : c.permInv (c.permAt j) = j := by
  have hlen : c.perm.toList.length = 16 := by simp
  have hn : c.perm.toList.Nodup := by
    simp only [Config.permBijective, Bool.and_eq_true, decide_eq_true_eq] at hp; exact hp.2
  have : c.permAt j = c.perm.toList[j]'(by omega) := by simp [Config.permAt, List.getD_eq_getElem?_getD, hj]
  rw [Config.permInv, this, List.Nodup.idxOf_getElem hn]

/-- Every wire group is named by a logical group. -/
theorem Config.exists_permAt {q : Nat} (hq : q < 16) : ∃ j < 16, c.permAt j = q := by
  obtain ⟨h1, h2⟩ := c.permBijective_iff.1 hp
  have hinj : Function.Injective fun j : Fin 16 => (⟨c.permAt j, h1 j j.isLt⟩ : Fin 16) := fun i j h =>
    Fin.ext (h2 i i.isLt j j.isLt (by simpa using h))
  obtain ⟨j, hj⟩ := Finite.surjective_of_injective hinj ⟨q, hq⟩
  exact ⟨j, j.isLt, by simpa using hj⟩

omit hp

/-- UNPACK's cell `4j + b` (R132, R133). -/
theorem unpackWire_bit (c : Config) (w : Wire) {j b : Nat} (hj : j < 16) (hb : b < 4) :
    (unpackWire c w).getLsbD (4 * j + b) = wireBit c.bitOrder w (4 * c.permAt j + b) := by
  rw [unpackWire, tabulate_getLsbD _ (by omega), show (4 * j + b) / 4 = j by omega,
    show (4 * j + b) % 4 = b by omega]

theorem BitOrder.bitPos_lt (o : BitOrder) {i : Nat} (h : i < 8) : o.bitPos i < 8 := by
  cases o <;> simp only [BitOrder.bitPos] <;> omega

theorem BitOrder.bitPos_bitPos (o : BitOrder) {i : Nat} (h : i < 8) : o.bitPos (o.bitPos i) = i := by
  cases o <;> simp only [BitOrder.bitPos]; omega

/-- The wire bits of PACK's bytes are PACK's wire bits (R131: 'Both directions use the same map'). -/
theorem wireBit_packWire (c : Config) (g : Grid) {u : Nat} (hu : u < 64) :
    wireBit c.bitOrder (packWire c g) u = packBit c g u := by
  have h8 : u / 8 < 8 := by omega
  rw [wireBit, packWire]
  simp only [Vector.toList_ofFn, List.getD_eq_getElem?_getD, List.getElem?_ofFn, h8, dite_true, Option.getD_some]
  rw [tabulate_getLsbD _ (c.bitOrder.bitPos_lt (by omega)), BitOrder.bitPos_bitPos _ (by omega), Nat.div_add_mod]

/-- PACK's wire bit `4·PERM[j] + b` is cell `4j + b` (R132, R134). -/
theorem packBit_permAt (hp : c.permBijective = true) (g : Grid) {j b : Nat} (hj : j < 16) (hb : b < 4) :
    packBit c g (4 * c.permAt j + b) = g.getLsbD (4 * j + b) := by
  rw [packBit, show (4 * c.permAt j + b) / 4 = c.permAt j by omega, show (4 * c.permAt j + b) % 4 = b by omega,
    Config.permInv_permAt hp hj]

/-- Two lots of eight bytes with the same wire bits are the same. -/
theorem wire_ext (o : BitOrder) {w v : Wire} (h : ∀ u < 64, wireBit o w u = wireBit o v u) : w = v := by
  refine Vector.ext fun k hk => BitVec.eq_of_getLsbD_eq fun i hi => ?_
  have := h (8 * k + o.bitPos i) (by have := o.bitPos_lt hi; omega)
  have hb := o.bitPos_lt hi
  simp only [wireBit, show (8 * k + o.bitPos i) / 8 = k by omega, show (8 * k + o.bitPos i) % 8 = o.bitPos i by omega,
    BitOrder.bitPos_bitPos o hi] at this
  simpa [List.getD_eq_getElem?_getD, hk] using this

end Sys2Proof
end

