-- ==== Sys2Proof/Laws/Decode.lean ====
section
/-! SUPPORT. The decoder's cases: what opcodes are recognised under a valid configuration, and when the head of the
buffer is a frame. -/

namespace Sys2Proof

/-- What a valid configuration gives, in the form proofs use. -/
theorem Config.valid_iff (c : Config) : c.valid = true ↔
    c.permBijective = true ∧ c.openOpcodes.Nodup ∧ (∀ op ∈ c.openOpcodes, 3 ≤ op.toNat ∧ op.toNat ≤ 8)
      ∧ c.capAllowed = true := by
  simp [Config.valid, Config.openOpcodes, and_assoc]

/-- Under a valid configuration different kinds have different opcodes (R6: pairwise distinct, and distinct from 0x00, 0x01
and 0x02). -/
theorem Config.opcode_injective {c : Config} (hc : c.valid = true) {j k : Kind} (h : c.opcode j = c.opcode k) : j = k := by
  obtain ⟨-, hn, hr, -⟩ := c.valid_iff.1 hc
  simp only [Config.openOpcodes, List.nodup_cons, List.mem_cons, List.not_mem_nil, or_false, not_or,
    forall_eq_or_imp, forall_eq] at hn hr
  obtain ⟨⟨h12, h13, h14⟩, ⟨h23, h24⟩, h34, -⟩ := hn
  have hnat := congrArg BitVec.toNat h
  cases j <;> cases k <;> try rfl
  all_goals exfalso
  all_goals first
    | (simp only [Config.opcode, BitVec.toNat_ofNat, BitVec.ofNat_eq_ofNat] at hnat; omega)
    | exact h12 h
    | exact h13 h
    | exact h14 h
    | exact h23 h
    | exact h24 h
    | exact h34 h
    | exact h12 h.symm
    | exact h13 h.symm
    | exact h14 h.symm
    | exact h23 h.symm
    | exact h24 h.symm
    | exact h34 h.symm

/-- What a recognised byte is the opcode of (R61). -/
theorem Config.eq_opcode_of_kindOf {c : Config} {op : Byte} {k : Kind} (h : c.kindOf op = some k) : op = c.opcode k := by
  unfold Config.kindOf at h
  split_ifs at h <;> cases h <;> assumption

theorem Config.kindOf_opcode_isSome (c : Config) (k : Kind) : ∃ j, c.kindOf (c.opcode k) = some j := by
  by_contra hn
  have h : c.kindOf (c.opcode k) = none := by
    cases h : c.kindOf (c.opcode k) with
    | none => rfl
    | some j => exact absurd ⟨j, h⟩ hn
  unfold Config.kindOf at h
  split_ifs at h
  cases k <;> simp_all [Config.opcode]

theorem Config.kindOf_opcode {c : Config} (hc : c.valid = true) (k : Kind) : c.kindOf (c.opcode k) = some k := by
  obtain ⟨j, h⟩ := c.kindOf_opcode_isSome k
  rw [h, Config.opcode_injective hc (Config.eq_opcode_of_kindOf h)]

/-- Under a valid configuration a byte is recognised as a kind exactly when it is that kind's opcode (R61). -/
theorem Config.kindOf_eq_some_iff {c : Config} (hc : c.valid = true) (op : Byte) (k : Kind) :
    c.kindOf op = some k ↔ op = c.opcode k :=
  ⟨Config.eq_opcode_of_kindOf, fun h => h ▸ Config.kindOf_opcode hc k⟩

@[simp] theorem decodeHead_nil (c : Config) : decodeHead c [] = .incomplete := rfl

theorem decodeHead_of_none {c : Config} {b : Byte} {rest : List Byte} (h : c.kindOf b = none) :
    decodeHead c (b :: rest) = .skipped b := by simp [decodeHead, h]

/-- The three cases of a recognised head byte (R102). -/
theorem decodeHead_of_some {c : Config} {b : Byte} {rest : List Byte} {k : Kind} (h : c.kindOf b = some k) :
    decodeHead c (b :: rest) = match frameLen c (b :: rest) with
      | none => .incomplete
      | some n => if (b :: rest).length < n then .incomplete else .frame (parse k (b :: rest)) := by
  unfold decodeHead
  dsimp only
  generalize c.kindOf b = o at h
  subst h
  rfl

/-- A frame that is wholly present is read (R102). -/
theorem decodeHead_whole {c : Config} {b : Byte} {rest : List Byte} {k : Kind} {n : Nat} (hk : c.kindOf b = some k)
    (hn : frameLen c (b :: rest) = some n) (hl : n ≤ rest.length + 1) :
    decodeHead c (b :: rest) = .frame (parse k (b :: rest)) := by
  rw [decodeHead_of_some hk, hn]
  exact if_neg (by simp only [List.length_cons]; omega)

/-- A frame that is not wholly present is left (R102, R114). -/
theorem decodeHead_short {c : Config} {b : Byte} {rest : List Byte} {k : Kind} {n : Nat} (hk : c.kindOf b = some k)
    (hn : frameLen c (b :: rest) = some n) (hl : rest.length + 1 < n) : decodeHead c (b :: rest) = .incomplete := by
  rw [decodeHead_of_some hk, hn]
  exact if_pos (by simpa only [List.length_cons] using hl)

/-- The length of every kind of frame but DEBUG (R62). -/
def Kind.fixedLength : Kind → Nat
  | .debug => 0
  | .syncgrid => 9
  | .buttondown | .buttonup | .padDown | .padUp => 2
  | .dialchange => 3

theorem frameLen_fixed {c : Config} {b : Byte} {rest : List Byte} {k : Kind} (hk : c.kindOf b = some k)
    (hne : k ≠ .debug) : frameLen c (b :: rest) = some k.fixedLength := by
  cases k <;> simp_all [frameLen, Kind.fixedLength]

theorem frameLen_debug (c : Config) (len : Byte) (rest : List Byte) :
    frameLen c (0x00 :: len :: rest) = some (2 + len.toNat) := rfl

theorem decodeHead_debug (c : Config) {len : Byte} {msg rest : List Byte} (h : msg.length = len.toNat) :
    decodeHead c (0x00 :: len :: (msg ++ rest)) = .frame (.debug msg) := by
  rw [decodeHead_whole rfl (frameLen_debug c len _) (by simp; omega)]
  simp [parse, byteAt, ← h]

theorem decodeHead_debug_short (c : Config) {len : Byte} {body : List Byte} (h : body.length < len.toNat) :
    decodeHead c (0x00 :: len :: body) = .incomplete :=
  decodeHead_short rfl (frameLen_debug c len body) (by simp; omega)

theorem decodeHead_syncgrid (c : Config) (w : Wire) (rest : List Byte) :
    decodeHead c (0x01 :: (w.toList ++ rest)) = .frame (.syncgrid w) := by
  rw [decodeHead_whole (k := .syncgrid) rfl (frameLen_fixed rfl (by simp)) (by simp [Kind.fixedLength])]
  simp only [parse, Head.frame.injEq, Frame.syncgrid.injEq]
  refine Vector.ext fun i hi => ?_
  simp only [Vector.getElem_ofFn, byteAt, List.getD_eq_getElem?_getD, List.getElem?_cons_succ]
  rw [List.getElem?_append_left (by simpa using hi)]
  simp [hi]

/-- What a frame at the head says of the buffer: its opcode is recognised, its length is the frame's, and it is wholly
present (R102, R75). -/
theorem decodeHead_eq_frame {c : Config} {buf : List Byte} {f : Frame} (h : decodeHead c buf = .frame f) :
    ∃ b rest k n, buf = b :: rest ∧ c.kindOf b = some k ∧ frameLen c buf = some n ∧ n ≤ buf.length ∧ f = parse k buf := by
  cases buf with
  | nil => simp at h
  | cons b rest =>
    cases hk : c.kindOf b with
    | none => simp [decodeHead_of_none hk] at h
    | some k =>
      rw [decodeHead_of_some hk] at h
      split at h
      · cases h
      · rename_i n hn
        split at h
        · cases h
        · cases h
          exact ⟨b, rest, k, n, rfl, hk, hn, by omega, rfl⟩

theorem decodeHead_eq_skipped {c : Config} {buf : List Byte} {b : Byte} (h : decodeHead c buf = .skipped b) :
    ∃ rest, buf = b :: rest ∧ c.kindOf b = none := by
  cases buf with
  | nil => simp at h
  | cons b' rest =>
    cases hk : c.kindOf b' with
    | none => rw [decodeHead_of_none hk] at h; cases h; exact ⟨rest, rfl, hk⟩
    | some k =>
      rw [decodeHead_of_some hk] at h
      split at h
      · cases h
      · split at h <;> cases h

/-- The parsed frame has the length that `frame_len` gives (R62, R75). -/
theorem parse_length {c : Config} {b : Byte} {rest : List Byte} {k : Kind} {n : Nat} (hk : c.kindOf b = some k)
    (hn : frameLen c (b :: rest) = some n) (hl : n ≤ (b :: rest).length) : (parse k (b :: rest)).length = n := by
  cases k <;> simp only [frameLen, hk] at hn
  case debug =>
    cases rest with
    | nil => simp at hn
    | cons len body =>
      simp only [Option.some.injEq] at hn
      subst hn
      simp only [List.length_cons] at hl
      simp [parse, Frame.length, byteAt]
      omega
  all_goals simp_all [parse, Frame.length]

/-- `frame_len` reads at most the opcode byte and the byte after it (R75), so more bytes at the tail do not change it. -/
theorem frameLen_append {c : Config} {buf : List Byte} {n : Nat} (h : frameLen c buf = some n) (more : List Byte) :
    frameLen c (buf ++ more) = some n := by
  cases buf with
  | nil => simp [frameLen] at h
  | cons b rest =>
    cases hk : c.kindOf b with
    | none => simp [frameLen, hk] at h
    | some k =>
      cases k <;> simp only [frameLen, hk, List.cons_append] at h ⊢ <;> try exact h
      cases rest with
      | nil => simp at h
      | cons len body => simpa using h

/-- A well-formed frame at the head of the buffer is what the decoder reads there, whatever follows (R64 to R70, R102). -/
theorem decodeHead_frameBytes {c : Config} (hc : c.valid = true) {f : Frame} (hw : wellFormed c f.toInstr = true)
    (rest : List Byte) : decodeHead c (frameBytes c f ++ rest) = .frame f := by
  have hk := fun k => Config.kindOf_opcode hc k
  cases f with
  | debug msg =>
    simp only [Frame.toInstr, wellFormed, decide_eq_true_eq] at hw
    exact decodeHead_debug c (by simp; omega)
  | syncgrid w => exact decodeHead_syncgrid c w rest
  | buttondown x =>
    exact decodeHead_whole (hk .buttondown) (frameLen_fixed (hk .buttondown) (by simp)) (by simp [Kind.fixedLength])
  | buttonup x =>
    exact decodeHead_whole (hk .buttonup) (frameLen_fixed (hk .buttonup) (by simp)) (by simp [Kind.fixedLength])
  | padDown x =>
    exact decodeHead_whole (hk .padDown) (frameLen_fixed (hk .padDown) (by simp)) (by simp [Kind.fixedLength])
  | padUp x =>
    exact decodeHead_whole (hk .padUp) (frameLen_fixed (hk .padUp) (by simp)) (by simp [Kind.fixedLength])
  | dialchange x y =>
    exact decodeHead_whole (hk .dialchange) (frameLen_fixed (hk .dialchange) (by simp)) (by simp [Kind.fixedLength])

theorem frameBytes_length (c : Config) (f : Frame) : (frameBytes c f).length = f.length := by
  cases f <;> simp [frameBytes, Frame.length]
  omega

/-- What the decoder reads at the head is well formed, and the bytes there are its bytes (R64 to R70, R102). -/
theorem frameBytes_of_decodeHead {c : Config} {buf : List Byte} {f : Frame} (h : decodeHead c buf = .frame f) :
    wellFormed c f.toInstr = true ∧ buf = frameBytes c f ++ buf.drop f.length := by
  obtain ⟨b, rest, k, n, rfl, hk, hn, hl, rfl⟩ := decodeHead_eq_frame h
  have hb := Config.eq_opcode_of_kindOf hk
  rw [List.length_cons] at hl
  cases k with
  | debug =>
    cases rest with
    | nil => simp [frameLen, hk] at hn
    | cons len body =>
      simp only [frameLen, hk, Option.some.injEq] at hn
      subst hn
      rw [List.length_cons] at hl
      have hlen : (body.take len.toNat).length = len.toNat := by simp; omega
      have := len.isLt
      constructor
      · simp [parse, Frame.toInstr, wellFormed, byteAt]; omega
      · simp only [parse, byteAt, List.drop_succ_cons, List.drop_zero, List.getD_cons_succ, List.getD_cons_zero, frameBytes,
          Frame.length, hlen, List.cons_append, Nat.add_comm 2, BitVec.ofNat_toNat, BitVec.setWidth_eq, List.take_append_drop,
          hb]
  | syncgrid =>
    rw [frameLen_fixed hk (by simp)] at hn
    cases hn
    match rest, hl with
    | w0 :: w1 :: w2 :: w3 :: w4 :: w5 :: w6 :: w7 :: rest, _ =>
      refine ⟨rfl, ?_⟩
      rw [hb]
      simp [parse, frameBytes, Frame.length, byteAt, Vector.ofFn, Array.ofFn_succ]
  | dialchange =>
    rw [frameLen_fixed hk (by simp)] at hn
    cases hn
    match rest, hl with
    | x :: y :: rest, _ => exact ⟨rfl, by rw [hb]; rfl⟩
  | buttondown | buttonup | padDown | padUp =>
    rw [frameLen_fixed hk (by simp)] at hn
    cases hn
    match rest, hl with
    | x :: rest, _ => exact ⟨rfl, by rw [hb]; rfl⟩

end Sys2Proof
end

