-- ==== Sys2Proof/Laws/State.lean ====
section
/-! SUPPORT. What each write of a state field leaves in each field, and what reset leaves. -/

namespace Sys2Proof.Machine

@[simp] theorem State.setBuf_cfg (s : State) (x : List Byte) : (s.setBuf x).cfg = s.cfg := rfl
@[simp] theorem State.setBuf_buf (s : State) (x : List Byte) : (s.setBuf x).buf = x := rfl
@[simp] theorem State.setBuf_ready (s : State) (x : List Byte) : (s.setBuf x).ready = s.ready := rfl
@[simp] theorem State.setBuf_fault (s : State) (x : List Byte) : (s.setBuf x).fault = s.fault := rfl
@[simp] theorem State.setBuf_pending (s : State) (x : List Byte) : (s.setBuf x).pending = s.pending := rfl
@[simp] theorem State.setBuf_result (s : State) (x : List Byte) : (s.setBuf x).result = s.result := rfl

@[simp] theorem State.setReady_cfg (s : State) (x : Bool) : (s.setReady x).cfg = s.cfg := rfl
@[simp] theorem State.setReady_buf (s : State) (x : Bool) : (s.setReady x).buf = s.buf := rfl
@[simp] theorem State.setReady_ready (s : State) (x : Bool) : (s.setReady x).ready = x := rfl
@[simp] theorem State.setReady_fault (s : State) (x : Bool) : (s.setReady x).fault = s.fault := rfl
@[simp] theorem State.setReady_pending (s : State) (x : Bool) : (s.setReady x).pending = s.pending := rfl
@[simp] theorem State.setReady_result (s : State) (x : Bool) : (s.setReady x).result = s.result := rfl

@[simp] theorem State.setFault_cfg (s : State) (x : Option FaultReason) : (s.setFault x).cfg = s.cfg := rfl
@[simp] theorem State.setFault_buf (s : State) (x : Option FaultReason) : (s.setFault x).buf = s.buf := rfl
@[simp] theorem State.setFault_ready (s : State) (x : Option FaultReason) : (s.setFault x).ready = s.ready := rfl
@[simp] theorem State.setFault_fault (s : State) (x : Option FaultReason) : (s.setFault x).fault = x := rfl
@[simp] theorem State.setFault_pending (s : State) (x : Option FaultReason) : (s.setFault x).pending = s.pending := rfl
@[simp] theorem State.setFault_result (s : State) (x : Option FaultReason) : (s.setFault x).result = s.result := rfl

@[simp] theorem State.setResult_cfg (s : State) (x : Result) : (s.setResult x).cfg = s.cfg := rfl
@[simp] theorem State.setResult_buf (s : State) (x : Result) : (s.setResult x).buf = s.buf := rfl
@[simp] theorem State.setResult_ready (s : State) (x : Result) : (s.setResult x).ready = s.ready := rfl
@[simp] theorem State.setResult_fault (s : State) (x : Result) : (s.setResult x).fault = s.fault := rfl
@[simp] theorem State.setResult_pending (s : State) (x : Result) : (s.setResult x).pending = s.pending := rfl
@[simp] theorem State.setResult_result (s : State) (x : Result) : (s.setResult x).result = x := rfl

@[simp] theorem State.setPending_cfg (s : State) (x : List Event) : (s.setPending x).cfg = s.cfg := rfl
@[simp] theorem State.setPending_buf (s : State) (x : List Event) : (s.setPending x).buf = s.buf := rfl
@[simp] theorem State.setPending_ready (s : State) (x : List Event) : (s.setPending x).ready = s.ready := rfl
@[simp] theorem State.setPending_fault (s : State) (x : List Event) : (s.setPending x).fault = s.fault := rfl
@[simp] theorem State.setPending_pending (s : State) (x : List Event) : (s.setPending x).pending = x := rfl
@[simp] theorem State.setPending_result (s : State) (x : List Event) : (s.setPending x).result = s.result := rfl

@[simp] theorem State.resetWith_cfg (c : Config) : (State.resetWith c).cfg = c := rfl
@[simp] theorem State.resetWith_buf (c : Config) : (State.resetWith c).buf = [] := rfl
@[simp] theorem State.resetWith_ready (c : Config) : (State.resetWith c).ready = c.readyAtReset := rfl
@[simp] theorem State.resetWith_fault (c : Config) : (State.resetWith c).fault = none := rfl
@[simp] theorem State.resetWith_pending (c : Config) : (State.resetWith c).pending = [] := rfl
@[simp] theorem State.resetWith_result (c : Config) : (State.resetWith c).result = .none := rfl

/-- A state is its six fields. -/
theorem State.eq_of_fields {s t : State} (hc : s.cfg = t.cfg) (hb : s.buf = t.buf) (hr : s.ready = t.ready)
    (hf : s.fault = t.fault) (hp : s.pending = t.pending) (hx : s.result = t.result) : s = t := by
  cases s; cases t; simp_all

end Sys2Proof.Machine
end

