-- ==== Sys2Proof/Laws/Ops.lean ====
section
/-! SUPPORT. What each shared operation can do, said once: the guard of a transaction, the effects under it, TAKE by the
head of the buffer, fetch and step. -/

namespace Sys2Proof.Machine

/-- In a state that can run, a transaction is its body. -/
theorem transact_live {s : State} (hc : s.cfg.valid = true) (hf : s.fault = none) (body : State → Answer) :
    transact s body = body s := by simp [transact, hc, hf]

theorem transact_invalid {s : State} (hc : s.cfg.valid = false) (body : State → Answer) :
    transact s body = .refused .configInvalid := by simp [transact, hc]

theorem transact_faulted {s : State} {r : FaultReason} (hc : s.cfg.valid = true) (hf : s.fault = some r)
    (body : State → Answer) : transact s body = .fault (.stuck r) := by simp [transact, hc, hf]

/-- A transaction that answers a next state ran its body, under a valid configuration, with no fault recorded. -/
theorem transact_eq_next {s t : State} {body : State → Answer} (h : transact s body = .next t) :
    s.cfg.valid = true ∧ s.fault = none ∧ body s = .next t := by
  unfold transact at h
  split at h
  · rename_i hc
    split at h
    · rename_i hf; exact ⟨hc, hf, h⟩
    · cases h
  · cases h

/-- The meaning of a frame is the guard around taking it. -/
theorem execFrame_eq (f : Frame) (s : State) : execFrame f s = transact s (takeFrame f) := by cases f <;> rfl

theorem exec_toInstr (f : Frame) (s : State) : exec f.toInstr s = transact s (takeFrame f) := by cases f <;> rfl

theorem exec_skip (b : Byte) (s : State) : exec (.skip b) s = transact s (skipByte b) := rfl

/-! The body of each instruction under its guard. -/

theorem exec_append (bs : List Byte) (s : State) : exec (.append bs) s = transact s (fun s =>
    if s.overflows bs then raise (.bufferOverflow s.buf.length bs.length) s else appendBytes bs s) := by
  simp only [exec, execAppend]

theorem exec_gridUpdate (g : Grid) (s : State) : exec (.gridUpdate g) s = transact s (fun s => respond (.sent (outboundBytes s.cfg (.gridUpdate g))) s) := by
  simp only [exec, execGridUpdate]

theorem exec_syncExit (s : State) : exec .syncExit s = transact s (fun s => respond (.sent (outboundBytes s.cfg .syncExit)) s) := by
  simp only [exec, execSyncExit]

theorem exec_syncEnter (s : State) : exec .syncEnter s = transact s (fun s => respond (.sent (outboundBytes s.cfg .syncEnter)) s) := by
  simp only [exec, execSyncEnter]

theorem exec_unpack (w : Wire) (s : State) : exec (.unpack w) s = transact s (fun s => respond (.grid (unpackWire s.cfg w)) s) := by
  simp only [exec, execUnpack]

theorem exec_pack (g : Grid) (s : State) : exec (.pack g) s = transact s (fun s => respond (.wire (packWire s.cfg g)) s) := by
  simp only [exec, execPack]

theorem exec_invert (g : Grid) (s : State) : exec (.invert g) s = transact s (respond (.grid (invertGrid g))) := by
  simp only [exec, execInvert]

theorem exec_rotl (g : Grid) (s : State) : exec (.rotl g) s = transact s (respond (.grid (rotlGrid g))) := by
  simp only [exec, execRotl]

theorem exec_rotr (g : Grid) (s : State) : exec (.rotr g) s = transact s (respond (.grid (rotrGrid g))) := by
  simp only [exec, execRotr]

theorem exec_flipv (g : Grid) (s : State) : exec (.flipv g) s = transact s (respond (.grid (flipvGrid g))) := by
  simp only [exec, execFlipv]

theorem exec_fliph (g : Grid) (s : State) : exec (.fliph g) s = transact s (respond (.grid (fliphGrid g))) := by
  simp only [exec, execFliph]

theorem exec_shl (g : Grid) (s : State) : exec (.shl g) s = transact s (respond (.grid (shlGrid g))) := by
  simp only [exec, execShl]

theorem exec_shr (g : Grid) (s : State) : exec (.shr g) s = transact s (respond (.grid (shrGrid g))) := by
  simp only [exec, execShr]

theorem exec_shu (g : Grid) (s : State) : exec (.shu g) s = transact s (respond (.grid (shuGrid g))) := by
  simp only [exec, execShu]

theorem exec_shd (g : Grid) (s : State) : exec (.shd g) s = transact s (respond (.grid (shdGrid g))) := by
  simp only [exec, execShd]

theorem exec_take (s : State) : exec .take s = execTake s := rfl

/-- TAKE in a state that can run, by the head of the buffer (R102). -/
theorem execTake_live {s : State} (hc : s.cfg.valid = true) (hf : s.fault = none) :
    execTake s = match decodeHead s.cfg s.buf with
      | .incomplete => respond (.token .incomplete) s
      | .skipped b => skipByte b s
      | .frame f => takeFrame f s := by
  rw [execTake, transact_live hc hf]
  cases decodeHead s.cfg s.buf with
  | incomplete => rfl
  | skipped b => exact transact_live hc hf _
  | frame f => exact (execFrame_eq f s).trans (transact_live hc hf _)

/-- Everything a TAKE that answers a next state can have done. -/
theorem execTake_cases {s t : State} (h : execTake s = .next t) : s.cfg.valid = true ∧ s.fault = none ∧
    ((decodeHead s.cfg s.buf = .incomplete ∧ t = s.setResult (.token .incomplete)) ∨
      (∃ b, decodeHead s.cfg s.buf = .skipped b ∧ t = (s.setBuf (s.buf.drop 1)).setResult (.token (.skipped b))) ∨
      (∃ f, decodeHead s.cfg s.buf = .frame f ∧
        t = ((s.setBuf (s.buf.drop f.length)).setReady (readyAfter s.cfg.marker s.ready f)).setResult
          (.token (gateToken s.ready f)))) := by
  obtain ⟨hc, hf, -⟩ := transact_eq_next h
  refine ⟨hc, hf, ?_⟩
  rw [execTake_live hc hf] at h
  cases hd : decodeHead s.cfg s.buf with
  | incomplete => rw [hd] at h; cases h; exact .inl ⟨rfl, rfl⟩
  | skipped b => rw [hd] at h; cases h; exact .inr (.inl ⟨b, rfl, rfl⟩)
  | frame f => rw [hd] at h; cases h; exact .inr (.inr ⟨f, rfl, rfl⟩)

/-- Everything an APPEND that answers a next state can have done (R100, R182). -/
theorem execAppend_cases {s t : State} {bs : List Byte} (h : execAppend bs s = .next t) :
    s.cfg.valid = true ∧ s.fault = none ∧
      ((s.overflows bs = false ∧ t = (s.setBuf (s.buf ++ bs)).setResult .none) ∨
        (s.overflows bs = true ∧
          t = (s.setFault (some (.bufferOverflow s.buf.length bs.length))).setResult .none)) := by
  obtain ⟨hc, hf, h⟩ := transact_eq_next h
  refine ⟨hc, hf, ?_⟩
  split at h
  · rename_i ho; cases h; exact .inr ⟨ho, rfl⟩
  · rename_i ho; cases h; exact .inl ⟨by simpa using ho, rfl⟩

theorem overflows_eq_true_iff (s : State) (bs : List Byte) :
    s.overflows bs = true ↔ ∃ cap, s.cfg.bufCap = some cap ∧ cap < s.buf.length + bs.length := by
  unfold State.overflows
  split <;> simp_all

/-- Every instruction is a body under the guard (R185, R186). -/
theorem exec_guarded (i : Instr) (s : State) : ∃ body, exec i s = transact s body := by
  cases i <;> simp only [exec, execDebug, execSyncgrid, execButtondown, execButtonup, execPadDown, execPadUp,
    execDialchange, execSkip, execGridUpdate, execSyncExit, execSyncEnter, execAppend, execTake, execUnpack, execPack,
    execInvert, execRotl, execRotr, execFlipv, execFliph, execShl, execShr, execShu, execShd, execReservedD,
    execReservedE, execReservedF] <;> exact ⟨_, rfl⟩

/-- The instructions that only return a value: the outbound frames, the codec and the transforms. -/
def ResultOnly : Instr → Prop
  | .gridUpdate _ | .syncExit | .syncEnter | .unpack _ | .pack _ => True
  | .invert _ | .rotl _ | .rotr _ | .flipv _ | .fliph _ | .shl _ | .shr _ | .shu _ | .shd _ => True
  | .debug _ | .syncgrid _ | .buttondown _ | .buttonup _ | .padDown _ | .padUp _ | .dialchange _ _ | .skip _ => False
  | .append _ | .take | .reservedD | .reservedE | .reservedF => False

/-- Such an instruction writes nothing but the result, and the result is no token. -/
theorem exec_resultOnly {i : Instr} (hi : ResultOnly i) (s : State) :
    ∃ r, (∀ k, r ≠ .token k) ∧ exec i s = transact s (respond r) := by
  cases i <;> first
    | exact hi.elim
    | (simp only [exec, execGridUpdate, execSyncExit, execSyncEnter, execUnpack, execPack, execInvert, execRotl, execRotr,
        execFlipv, execFliph, execShl, execShr, execShu, execShd, transact]
       exact ⟨_, by simp, rfl⟩)

/-- The reserved command codes record the fault and do nothing else (R184). -/
theorem exec_reserved {i : Instr} (hi : i = .reservedD ∨ i = .reservedE ∨ i = .reservedF) (s : State) :
    exec i s = transact s (raise .reservedCommand) := by
  rcases hi with rfl | rfl | rfl <;> rfl

/-- Every instruction is of one of these shapes. -/
theorem instr_shape (i : Instr) : (∃ f, i = Frame.toInstr f) ∨ (∃ b, i = .skip b) ∨ i = .take ∨ (∃ bs, i = .append bs) ∨
    (i = .reservedD ∨ i = .reservedE ∨ i = .reservedF) ∨ ResultOnly i := by
  cases i
  case debug m => exact .inl ⟨.debug m, rfl⟩
  case syncgrid w => exact .inl ⟨.syncgrid w, rfl⟩
  case buttondown x => exact .inl ⟨.buttondown x, rfl⟩
  case buttonup x => exact .inl ⟨.buttonup x, rfl⟩
  case padDown x => exact .inl ⟨.padDown x, rfl⟩
  case padUp x => exact .inl ⟨.padUp x, rfl⟩
  case dialchange x y => exact .inl ⟨.dialchange x y, rfl⟩
  all_goals simp [ResultOnly]

/-- Everything an instruction that answers a next state can have done, said once: it took a frame, it skipped a byte, it
found too little, it appended, it overflowed, it was reserved, or it only returned a value. -/
theorem exec_cases {i : Instr} {s t : State} (h : exec i s = .next t) : s.cfg.valid = true ∧ s.fault = none ∧
    ((∃ f, (i = f.toInstr ∨ i = .take ∧ decodeHead s.cfg s.buf = .frame f) ∧ takeFrame f s = .next t) ∨
      (∃ b, (i = .skip b ∨ i = .take ∧ decodeHead s.cfg s.buf = .skipped b) ∧ skipByte b s = .next t) ∨
      (i = .take ∧ decodeHead s.cfg s.buf = .incomplete ∧ t = s.setResult (.token .incomplete)) ∨
      (∃ bs, i = .append bs ∧ s.overflows bs = false ∧ t = (s.setBuf (s.buf ++ bs)).setResult .none) ∨
      (∃ bs, i = .append bs ∧ s.overflows bs = true ∧
        t = (s.setFault (some (.bufferOverflow s.buf.length bs.length))).setResult .none) ∨
      ((i = .reservedD ∨ i = .reservedE ∨ i = .reservedF) ∧
        t = (s.setFault (some .reservedCommand)).setResult .none) ∨
      (ResultOnly i ∧ ∃ r, (∀ k, r ≠ .token k) ∧ t = s.setResult r)) := by
  rcases instr_shape i with ⟨f, rfl⟩ | ⟨b, rfl⟩ | rfl | ⟨bs, rfl⟩ | hi | hi
  · rw [exec_toInstr] at h
    obtain ⟨hc, hf, h⟩ := transact_eq_next h
    exact ⟨hc, hf, .inl ⟨f, .inl rfl, h⟩⟩
  · obtain ⟨hc, hf, h⟩ := transact_eq_next (exec_skip b s ▸ h)
    exact ⟨hc, hf, .inr (.inl ⟨b, .inl rfl, h⟩)⟩
  · obtain ⟨hc, hf, ⟨hd, ht⟩ | ⟨x, hd, ht⟩ | ⟨f, hd, ht⟩⟩ := execTake_cases h
    · exact ⟨hc, hf, .inr (.inr (.inl ⟨rfl, hd, ht⟩))⟩
    · exact ⟨hc, hf, .inr (.inl ⟨x, .inr ⟨rfl, hd⟩, by rw [ht]; rfl⟩)⟩
    · exact ⟨hc, hf, .inl ⟨f, .inr ⟨rfl, hd⟩, by rw [ht]; rfl⟩⟩
  · obtain ⟨hc, hf, ⟨ho, ht⟩ | ⟨ho, ht⟩⟩ := execAppend_cases h
    · exact ⟨hc, hf, .inr (.inr (.inr (.inl ⟨bs, rfl, ho, ht⟩)))⟩
    · exact ⟨hc, hf, .inr (.inr (.inr (.inr (.inl ⟨bs, rfl, ho, ht⟩))))⟩
  · rw [exec_reserved hi] at h
    obtain ⟨hc, hf, h⟩ := transact_eq_next h
    cases h
    exact ⟨hc, hf, .inr (.inr (.inr (.inr (.inr (.inl ⟨hi, rfl⟩)))))⟩
  · obtain ⟨r, hr, he⟩ := exec_resultOnly hi s
    rw [he] at h
    obtain ⟨hc, hf, h⟩ := transact_eq_next h
    cases h
    exact ⟨hc, hf, .inr (.inr (.inr (.inr (.inr (.inr ⟨hi, r, hr, rfl⟩)))))⟩

/-- No instruction writes the configuration or the controller's queue. -/
theorem exec_keeps_cfg {i : Instr} {s t : State} (h : exec i s = .next t) : t.cfg = s.cfg ∧ t.pending = s.pending := by
  obtain ⟨-, -, h⟩ := exec_cases h
  rcases h with ⟨f, -, h⟩ | ⟨b, -, h⟩ | ⟨-, -, rfl⟩ | ⟨bs, -, -, rfl⟩ | ⟨bs, -, -, rfl⟩ | ⟨-, rfl⟩ | ⟨-, r, -, rfl⟩
  · cases h; exact ⟨rfl, rfl⟩
  · cases h; exact ⟨rfl, rfl⟩
  all_goals exact ⟨rfl, rfl⟩

/-- An invalid configuration refuses every instruction (R183). -/
theorem exec_invalid {s : State} (hc : s.cfg.valid = false) (i : Instr) : exec i s = .refused .configInvalid := by
  obtain ⟨body, h⟩ := exec_guarded i s
  rw [h, transact_invalid hc]

/-- A recorded fault stops every instruction (R185). -/
theorem exec_faulted {s : State} {r : FaultReason} (hc : s.cfg.valid = true) (hf : s.fault = some r) (i : Instr) :
    exec i s = .fault (.stuck r) := by
  obtain ⟨body, h⟩ := exec_guarded i s
  rw [h, transact_faulted hc hf]

theorem step_idle {s : State} (h : s.pending = []) : step s = idle s := by simp [step, fetch, h]

theorem step_command {s : State} {r : Request} {es : List Event} (h : s.pending = .command r :: es) :
    step s = exec (decodeCommand r) (s.setPending es) := by simp [step, fetch, h]

theorem step_send {s : State} {o : Outbound} {es : List Event} (h : s.pending = .send o :: es) :
    step s = exec o.toInstr (s.setPending es) := by simp [step, fetch, h]

theorem step_reset {s : State} {es : List Event} (h : s.pending = .reset :: es) :
    step s = takeReset (s.setPending es) := by simp [step, fetch, h]

/-- Everything a step that answers a next state can be. -/
theorem step_cases {s t : State} (h : step s = .next t) :
    (s.pending = [] ∧ t = s) ∨
      (∃ es, s.pending = .reset :: es ∧ s.cfg.valid = true ∧ t = resetBlock (s.setPending es)) ∨
      (∃ i e es, s.pending = e :: es ∧ e ≠ .reset ∧ exec i (s.setPending es) = .next t) := by
  cases hp : s.pending with
  | nil =>
    rw [step_idle hp] at h
    obtain ⟨-, -, h⟩ := transact_eq_next h
    cases h; exact .inl ⟨rfl, rfl⟩
  | cons e es =>
    cases e with
    | reset =>
      rw [step_reset hp, takeReset] at h
      split at h
      · rename_i hc; cases h; exact .inr (.inl ⟨es, rfl, hc, rfl⟩)
      · cases h
    | command r => rw [step_command hp] at h; exact .inr (.inr ⟨_, _, es, rfl, by simp, h⟩)
    | send o => rw [step_send hp] at h; exact .inr (.inr ⟨_, _, es, rfl, by simp, h⟩)

end Sys2Proof.Machine
end

