-- ==== Sys2Proof/Laws/Macros.lean ====
section
/-! SUPPORT. DRAIN one TAKE at a time: what it does at each kind of head (40_frame_decoder.md R115). -/

namespace Sys2Proof.Machine

variable {s : State} (hc : s.cfg.valid = true) (hf : s.fault = none)
include hc hf

theorem drainUpTo_incomplete (n : Nat) (hd : decodeHead s.cfg s.buf = .incomplete) :
    drainUpTo (n + 1) s = ([], s.setResult (.token .incomplete)) := by
  simp [drainUpTo, exec_take, execTake_live hc hf, hd, respond]

theorem drainUpTo_skipped (n : Nat) {b : Byte} (hd : decodeHead s.cfg s.buf = .skipped b) :
    drainUpTo (n + 1) s =
      let r := drainUpTo n ((s.setBuf (s.buf.drop 1)).setResult (.token (.skipped b)))
      (.skipped b :: r.1, r.2) := by
  simp [drainUpTo, exec_take, execTake_live hc hf, hd, skipByte]

theorem drainUpTo_frame (n : Nat) {f : Frame} (hd : decodeHead s.cfg s.buf = .frame f) :
    drainUpTo (n + 1) s =
      let r := drainUpTo n (((s.setBuf (s.buf.drop f.length)).setReady (readyAfter s.cfg.marker s.ready f)).setResult
        (.token (gateToken s.ready f)))
      (gateToken s.ready f :: r.1, r.2) := by
  have hne : gateToken s.ready f ≠ .incomplete := by
    cases f <;> cases s.ready <;> simp [gateToken]
  simp only [drainUpTo, exec_take, execTake_live hc hf, hd, takeFrame, State.setResult_result]

end Sys2Proof.Machine
end

