-- ==== Sys2Proof/Tests/Slice0.lean ====
section
/-! SUPPORT. The model's own tests. Every expected value is a row of spec/95_test_vectors.md (named in the comment above
it) or an example of the rule named there. Then, for each statement with hypotheses, a theorem `witness_<Statement>`: a
state and operands that meet all of them, one for each clause. -/

namespace Sys2Proof.Tests

open Sys2Proof Sys2Proof.Machine

/-- A running block with these contents. -/
def live (c : Config) (ready : Bool) (buf : List Byte) : State :=
  { State.resetWith c with ready := ready, buf := buf }

/-- A running block under `REFCFG`. -/
abbrev refBlock (ready : Bool) (buf : List Byte) : State := live Config.ref ready buf

/-- The next state of an answer. -/
def after : Answer → Option State
  | .next t => some t
  | .fault _ => none
  | .refused _ => none

/-- The state after one TAKE under `REFCFG`, and its token. -/
def takes (ready : Bool) (buf : List Byte) : Option State := after (exec .take (refBlock ready buf))

/-- A block under `REFCFG` that holds `buf`, with the handshake flag and the token given. -/
def took (ready : Bool) (buf : List Byte) (t : Token) : Option State :=
  some { refBlock ready buf with result := .token t }

/-- The grid an instruction returns under `REFCFG`. -/
def gridOf (i : Instr) : Option Grid :=
  match after (exec i (refBlock false [])) with
  | some t => match t.result with
    | .grid g => some g
    | .none | .token _ | .wire _ | .sent _ => none
  | none => none

/-- `REFCFG` with MSB_FIRST. -/
abbrev refMsb : Config := { Config.ref with bitOrder := .msbFirst }

/-- `REFCFG` with a buffer of `n` bytes. -/
abbrev refCap (n : Nat) : Config := { Config.ref with bufCap := some n }

/-! ### Well-formedness -/

/-- R64: a message of 256 bytes has no length byte, one of 255 has. -/
theorem test_wellFormed_debug_length :
    wellFormed Config.ref (.debug (List.replicate 256 0x41)) = false ∧
    wellFormed Config.ref (.debug (List.replicate 255 0x41)) = true := by decide +kernel

/-- R74: 0x02 is recognised, so it is not a skipped byte; 0x05 is unrecognised under `REFCFG`. -/
theorem test_wellFormed_skip :
    wellFormed Config.ref (.skip 0x02) = false ∧ wellFormed Config.ref (.skip 0x04) = false ∧
    wellFormed Config.ref (.skip 0x05) = true := by decide

/-! ### Configurations (section 2.4 of the vectors, R183) -/

/-- `PERM` = [0 × 16], an entry 16, `BUF_CAP` = 256, OP_BUTTONUP = OP_PAD_UP, OP_DIALCHANGE = 0x09 and an opcode 0x02
are refused. -/
theorem test_config_refused :
    ({ Config.ref with perm := Vector.replicate 16 0 } : Config).valid = false ∧
    ({ Config.ident with perm := Config.ident.perm.set 15 16 } : Config).valid = false ∧
    (refCap 256).valid = false ∧
    ({ Config.ref with opButtonUp := 0x03, opPadUp := 0x03 } : Config).valid = false ∧
    ({ Config.ref with opDialChange := 0x09 } : Config).valid = false ∧
    ({ Config.ref with opButtonUp := 0x02 } : Config).valid = false := by decide

/-- The named configurations, `BUF_CAP` = 257, and OP_BUTTONUP = 0x05 (section 2.1) are accepted. -/
theorem test_config_accepted :
    Config.ref.valid = true ∧ Config.ident.valid = true ∧ (refCap 257).valid = true ∧ refMsb.valid = true ∧
    ({ Config.ref with opButtonUp := 0x05, opPadDown := 0x03, opPadUp := 0x04 } : Config).valid = true := by decide

/-! ### Decoding of written words -/

/-- E2 and R62: DEBUG "abc", and the empty message. -/
theorem test_decode_debug :
    decode Config.ref (.inbound [0x00, 0x03, 0x61, 0x62, 0x63, 0x02]) = .ok (.debug [0x61, 0x62, 0x63], [0x02]) ∧
    decode Config.ref (.inbound [0x00, 0x00]) = .ok (.debug [], []) := ⟨rfl, rfl⟩

/-- T8. -/
theorem test_decode_syncgrid :
    decode Config.ref (.inbound [0x01, 0x12, 0x34, 0x56, 0x78, 0x9A, 0xBC, 0xDE, 0xF0]) =
      .ok (.syncgrid #v[0x12, 0x34, 0x56, 0x78, 0x9A, 0xBC, 0xDE, 0xF0], []) := rfl

/-- T10, T11, T12, T13. -/
theorem test_decode_one_byte_frames :
    decode Config.ref (.inbound [0x02, 0xFF]) = .ok (.buttondown 255, []) ∧
    decode Config.ref (.inbound [0x03, 0x05]) = .ok (.buttonup 5, []) ∧
    decode Config.ref (.inbound [0x04, 0x40]) = .ok (.padDown 64, []) ∧
    decode Config.ref (.inbound [0x07, 0x00]) = .ok (.padUp 0, []) := ⟨rfl, rfl, rfl, rfl⟩

/-- T15. -/
theorem test_decode_dialchange :
    decode Config.ref (.inbound [0x08, 0x02, 0xFF]) = .ok (.dialchange 2 255, []) := rfl

/-- T16 and E4. -/
theorem test_decode_skip :
    decode Config.ref (.inbound [0x05, 0x06]) = .ok (.skip 0x05, [0x06]) ∧
    decode Config.ref (.inbound [0x09, 0x02, 0x07]) = .ok (.skip 0x09, [0x02, 0x07]) := ⟨rfl, rfl⟩

/-- T3, T7, T14: too few bytes are no instruction. -/
theorem test_decode_incomplete :
    decode Config.ref (.inbound [0x00]) = .error .incompleteInbound ∧
    decode Config.ref (.inbound [0x01, 0, 0, 0, 0, 0, 0, 0]) = .error .incompleteInbound ∧
    decode Config.ref (.inbound [0x08, 0x02]) = .error .incompleteInbound := ⟨rfl, rfl, rfl⟩

/-- E6 (the grid update of the empty grid), R72, R73, and a byte that begins no outbound frame. -/
theorem test_decode_outbound :
    decode Config.ref (.outbound [0x01, 0, 0, 0, 0, 0, 0, 0, 0]) = .ok (.gridUpdate 0, []) ∧
    decode Config.ref (.outbound [0x05]) = .ok (.syncExit, []) ∧
    decode Config.ref (.outbound [0x06]) = .ok (.syncEnter, []) ∧
    decode Config.ref (.outbound [0x02]) = .error (.unknownOutbound 0x02) := ⟨by decide +kernel, rfl, rfl, rfl⟩

/-- The table of R63, code 0x0 to 0x6. -/
theorem test_decode_commands_low :
    decode Config.ref (.command { cmd := 0b0000, bytes := [0x02, 0x05] }) = .ok (.append [0x02, 0x05], []) ∧
    decode Config.ref (.command { cmd := 0b0001 }) = .ok (.take, []) ∧
    decode Config.ref (.command { cmd := 0b0010, wire := Vector.replicate 8 0xFF }) =
      .ok (.unpack (Vector.replicate 8 0xFF), []) ∧
    decode Config.ref (.command { cmd := 0b0011, grid := 3 }) = .ok (.pack 3, []) ∧
    decode Config.ref (.command { cmd := 0b0100, grid := 4 }) = .ok (.invert 4, []) ∧
    decode Config.ref (.command { cmd := 0b0101, grid := 5 }) = .ok (.rotl 5, []) ∧
    decode Config.ref (.command { cmd := 0b0110, grid := 6 }) = .ok (.rotr 6, []) :=
  ⟨rfl, rfl, rfl, rfl, rfl, rfl, rfl⟩

/-- The table of R63, code 0x7 to 0xF. -/
theorem test_decode_commands_high :
    decode Config.ref (.command { cmd := 0b0111, grid := 7 }) = .ok (.flipv 7, []) ∧
    decode Config.ref (.command { cmd := 0b1000, grid := 8 }) = .ok (.fliph 8, []) ∧
    decode Config.ref (.command { cmd := 0b1001, grid := 9 }) = .ok (.shl 9, []) ∧
    decode Config.ref (.command { cmd := 0b1010, grid := 10 }) = .ok (.shr 10, []) ∧
    decode Config.ref (.command { cmd := 0b1011, grid := 11 }) = .ok (.shu 11, []) ∧
    decode Config.ref (.command { cmd := 0b1100, grid := 12 }) = .ok (.shd 12, []) ∧
    decode Config.ref (.command { cmd := 0b1101 }) = .ok (.reservedD, []) ∧
    decode Config.ref (.command { cmd := 0b1110 }) = .ok (.reservedE, []) ∧
    decode Config.ref (.command { cmd := 0b1111 }) = .ok (.reservedF, []) :=
  ⟨rfl, rfl, rfl, rfl, rfl, rfl, rfl, rfl, rfl⟩

/-- Table words: a command code, and the bytes of T10, T8 and E4 with bits 7..0 the first byte. -/
theorem test_table_words :
    decodeTableWord 8 0x1 = some .take ∧ decodeTableWord 16 0xFF02 = some (.buttondown 255) ∧
    decodeTableWord 72 0xF0DEBC9A7856341201 =
      some (.syncgrid #v[0x12, 0x34, 0x56, 0x78, 0x9A, 0xBC, 0xDE, 0xF0]) ∧
    decodeTableWord 24 0x070209 = some (.skip 0x09) := by decide +kernel

/-- `withFetchWord` places what the next step runs, from reset: a TAKE on the empty buffer, and a skipped 0xFF. -/
theorem test_withFetchWord :
    ((after (step (State.reset.withFetchWord 8 0x1))).map (·.result)) = some (.token .incomplete) ∧
    ((after (step (State.reset.withFetchWord 8 0xFF))).map (·.result)) = some (.token (.skipped 0xFF)) := by
  decide +kernel

/-! ### The frame decoder -/

/-- E2 and T5. -/
theorem test_take_debug :
    takes true [0x00, 0x03, 0x61, 0x62, 0x63, 0x02] = took true [0x02] (.frame (.debug [0x61, 0x62, 0x63])) := by
  decide +kernel

/-- T23, T24: the message [0x0A] is the marker, the empty message is not. -/
theorem test_take_debug_marker :
    takes false [0x00, 0x01, 0x0A] = took true [] (.frame (.debug [0x0A])) ∧
    takes false [0x00, 0x00] = took false [] (.frame (.debug [])) := by decide +kernel

/-- T8, and the same frame before the handshake (R112). -/
theorem test_take_syncgrid :
    takes true [0x01, 0x12, 0x34, 0x56, 0x78, 0x9A, 0xBC, 0xDE, 0xF0] =
      took true [] (.frame (.syncgrid #v[0x12, 0x34, 0x56, 0x78, 0x9A, 0xBC, 0xDE, 0xF0])) ∧
    takes false [0x01, 0xFF, 0, 0, 0, 0, 0, 0, 0, 0x09] =
      took false [0x09] (.discarded (.syncgrid #v[0xFF, 0, 0, 0, 0, 0, 0, 0])) := by decide +kernel

/-- T10 and T19. -/
theorem test_take_buttondown :
    takes true [0x02, 0xFF] = took true [] (.frame (.buttondown 255)) ∧
    takes false [0x02, 0x05, 0x03] = took false [0x03] (.discarded (.buttondown 5)) := by decide

/-- T11 and T19. -/
theorem test_take_buttonup :
    takes true [0x03, 0x05] = took true [] (.frame (.buttonup 5)) ∧
    takes false [0x03, 0x05, 0x08, 0x01, 0x02] = took false [0x08, 0x01, 0x02] (.discarded (.buttonup 5)) := by decide

/-- T12: a slot beyond 63 is passed through. -/
theorem test_take_padDown : takes true [0x04, 0x40] = took true [] (.frame (.padDown 64)) := by decide

/-- T13. -/
theorem test_take_padUp : takes true [0x07, 0x00] = took true [] (.frame (.padUp 0)) := by decide

/-- T15 and T19: the dial id stands before the value. -/
theorem test_take_dialchange :
    takes true [0x08, 0x02, 0xFF] = took true [] (.frame (.dialchange 2 255)) ∧
    takes false [0x08, 0x01, 0x02] = took false [] (.discarded (.dialchange 1 2)) := by decide

/-- E4 and T22: a skipped byte is never gated. -/
theorem test_take_skip :
    takes true [0x09, 0x02, 0x07] = took true [0x02, 0x07] (.skipped 0x09) ∧
    takes false [0x09, 0x02, 0x01] = took false [0x02, 0x01] (.skipped 0x09) := by decide

/-- T1, T3, T4, T7, T9, T14: INCOMPLETE keeps every byte. -/
theorem test_take_incomplete :
    ∀ buf ∈ ([[], [0x00], [0x00, 0x03, 0x61, 0x62], [0x01, 0, 0, 0, 0, 0, 0, 0], [0x02], [0x08, 0x02]] :
        List (List Byte)),
      takes true buf = took true buf .incomplete := by decide +kernel

/-- Section 2.1: with OP_BUTTONUP = 0x05 the byte 0x05 begins a frame, and 0x07 is skipped. -/
theorem test_take_other_opcodes :
    let c : Config := { Config.ref with opButtonUp := 0x05, opPadDown := 0x03, opPadUp := 0x04 }
    (after (exec .take (live c true [0x05, 0x09]))).map (·.result) = some (.token (.frame (.buttonup 9))) ∧
    (after (exec .take (live c true [0x07]))).map (·.result) = some (.token (.skipped 0x07)) := by decide

/-- P5: 256 bytes of a frame of 257 are INCOMPLETE, and the 257th completes it. -/
theorem test_take_longest_frame :
    takes true (0x00 :: 0xFF :: List.replicate 254 0x41) =
      took true (0x00 :: 0xFF :: List.replicate 254 0x41) .incomplete ∧
    takes true (0x00 :: 0xFF :: List.replicate 255 0x41) =
      took true [] (.frame (.debug (List.replicate 255 0x41))) := by decide +kernel

/-- R100's example. -/
theorem test_append :
    after (exec (.append [0x05]) (refBlock true [0x02])) = some (refBlock true [0x02, 0x05]) := by decide

/-- Section 2.4: `BUF_CAP` = 257 with 256 bytes held takes one byte more, and two overflow it. -/
theorem test_append_overflow :
    let s := live (refCap 257) true (List.replicate 256 0x41)
    after (exec (.append [0x41]) s) = some { s with buf := List.replicate 257 0x41 } ∧
    after (exec (.append [0x41, 0x02]) s) = some { s with fault := some (.bufferOverflow 256 2) } := by decide +kernel

/-- E1: the two chunkings of a BUTTONDOWN frame. -/
theorem test_feed_chunks :
    feedAll [[0x02], [0x05]] (refBlock true []) = feed [0x02, 0x05] (refBlock true []) ∧
    (feed [0x02, 0x05] (refBlock true [])).1 = [.frame (.buttondown 5)] := by decide +kernel

/-- T21: the marker in the middle of a stream. -/
theorem test_drain_marker :
    (drain (refBlock false [0x02, 0x01, 0x00, 0x02, 0x6F, 0x0A, 0x02, 0x02])).1 =
      [.discarded (.buttondown 1), .frame (.debug [0x6F, 0x0A]), .frame (.buttondown 2)] := by decide +kernel

/-! ### The codec -/

/-- Section 2.2, UNPACK. -/
theorem test_unpack :
    gridOf (.unpack #v[0x12, 0x34, 0x56, 0x78, 0x9A, 0xBC, 0xDE, 0xF0]) = some 0x096FC52B81E74DA3 ∧
    gridOf (.unpack #v[0x01, 0, 0, 0, 0, 0, 0, 0]) = some 0x0000001000000000 := by decide +kernel

/-- Section 2.2, UNPACK under MSB_FIRST and under `IDCFG`. -/
theorem test_unpack_msb_ident :
    unpackWire refMsb #v[0x12, 0x34, 0x56, 0x78, 0x9A, 0xBC, 0xDE, 0xF0] = 0xF5A0D683E4B1C792 ∧
    unpackWire Config.ident #v[0x12, 0x34, 0x56, 0x78, 0x9A, 0xBC, 0xDE, 0xF0] = 0xF0DEBC9A78563412 := by
  decide +kernel

/-- Section 2.2, PACK. -/
theorem test_pack :
    (after (exec (.pack 0x0123456789ABCDEF) (refBlock false []))).map (·.result) =
      some (.wire #v[0x96, 0xFC, 0x52, 0xB8, 0x1E, 0x74, 0xDA, 0x30]) := by decide +kernel

/-- Section 2.2, PACK under MSB_FIRST and under `IDCFG`. -/
theorem test_pack_msb_ident :
    packWire refMsb 0x0123456789ABCDEF = #v[0x69, 0x3F, 0x4A, 0x1D, 0x78, 0x2E, 0x5B, 0x0C] ∧
    packWire Config.ident 0x0123456789ABCDEF = #v[0xEF, 0xCD, 0xAB, 0x89, 0x67, 0x45, 0x23, 0x01] := by decide +kernel

/-- P2, step 6: the grid update of 0x0404040408080808. -/
theorem test_gridUpdate :
    (after (exec (.gridUpdate 0x0404040408080808) (refBlock true []))).map (·.result) =
      some (.sent [0x01, 0x80, 0x80, 0x40, 0x80, 0x40, 0x40, 0x80, 0x40]) := by decide +kernel

/-- E6. -/
theorem test_sync_frames :
    (after (exec .syncExit (refBlock true []))).map (·.result) = some (.sent [0x05]) ∧
    (after (exec .syncEnter (refBlock true []))).map (·.result) = some (.sent [0x06]) := by decide

/-! ### The transforms (section 2.3) -/

/-- INVERT. -/
theorem test_invert : gridOf (.invert 0x0123456789ABCDEF) = some 0xFEDCBA9876543210 := by decide +kernel

/-- ROTL, and the top-right cell. -/
theorem test_rotl :
    gridOf (.rotl 0x0123456789ABCDEF) = some 0xFF55330F0055330F ∧
    gridOf (.rotl 0x0000000000000080) = some 0x0000000000000001 := by decide +kernel

/-- ROTR. -/
theorem test_rotr : gridOf (.rotr 0x0123456789ABCDEF) = some 0xF0CCAA00F0CCAAFF := by decide +kernel

/-- FLIPV. -/
theorem test_flipv : gridOf (.flipv 0x0123456789ABCDEF) = some 0xEFCDAB8967452301 := by decide +kernel

/-- FLIPH. -/
theorem test_fliph : gridOf (.fliph 0x0123456789ABCDEF) = some 0x80C4A2E691D5B3F7 := by decide +kernel

/-- SHL. -/
theorem test_shl : gridOf (.shl 0x0123456789ABCDEF) = some 0x8091A2B3C4D5E6F7 := by decide +kernel

/-- SHR. -/
theorem test_shr : gridOf (.shr 0x0123456789ABCDEF) = some 0x02468ACE13579BDF := by decide +kernel

/-- SHU. -/
theorem test_shu : gridOf (.shu 0x0123456789ABCDEF) = some 0xEF0123456789ABCD := by decide +kernel

/-- SHD. -/
theorem test_shd : gridOf (.shd 0x0123456789ABCDEF) = some 0x23456789ABCDEF01 := by decide +kernel

/-! ### Faults (section 2.4) -/

/-- A reserved code sets `fault` and nothing else, and the next transaction has no step. -/
theorem test_reserved :
    ∀ i ∈ [Instr.reservedD, .reservedE, .reservedF],
      after (exec i (refBlock true [0x02])) = some { refBlock true [0x02] with fault := some .reservedCommand } ∧
      after (exec .take { refBlock true [0x02] with fault := some .reservedCommand }) = none := by decide

/-- R200: a reset event clears the fault and the buffer. -/
theorem test_reset_event :
    (after (step { refBlock true [0x02] with fault := some .reservedCommand, pending := [.reset] })) =
      some (refBlock false []) := by decide

/-! ### Witnesses -/

/-- Running blocks under `REFCFG` are live. -/
theorem refBlock_live (ready : Bool) (buf : List Byte) : (refBlock ready buf).Live :=
  ⟨show Config.ref.valid = true by decide, rfl⟩

/-- Running blocks with a bounded buffer of 257 bytes are live. -/
theorem capBlock_live (ready : Bool) (buf : List Byte) : (live (refCap 257) ready buf).Live :=
  ⟨show (refCap 257).valid = true by decide, rfl⟩

/-- A bounded buffer of 257 bytes is within its capacity when it holds no more. -/
theorem capBlock_fits (ready : Bool) (buf : List Byte) (h : buf.length ≤ 257) : (live (refCap 257) ready buf).BufFits :=
  fun cap hc => (Option.some.inj hc : 257 = cap) ▸ h

/-- A next state with a property that can be decided. -/
theorem next_with (P : State → Prop) [DecidablePred P] {a : Answer}
    (h : (match a with | .next t => decide (P t) | .fault _ => false | .refused _ => false) = true) :
    ∃ t, a = .next t ∧ P t := by
  cases a with
  | next t => exact ⟨t, rfl, of_decide_eq_true h⟩
  | fault _ => cases h
  | refused _ => cases h

/-- A next state. -/
theorem next_any {a : Answer} (h : (after a).isSome = true) : ∃ t, a = .next t := by
  cases a with
  | next t => exact ⟨t, rfl⟩
  | fault _ => cases h
  | refused _ => cases h

/-- A block stopped by a reserved command. -/
abbrev stuckBlock (es : List Event) : State :=
  { refBlock true [0x02] with fault := some .reservedCommand, pending := es }

theorem witness_ResetPutsTheBlockInItsResetState :
    Config.ref.valid = true ∧ (stuckBlock [.reset]).cfg.valid = true ∧
    (stuckBlock [.reset]).pending = .reset :: [] := by decide

/-- The byte 0x34 of a PAD_DOWN frame that straddles the reset. -/
theorem witness_ResetDiscardsAPartialFrame :
    let s := { refBlock true [0x04] with pending := [.reset] }
    s.cfg.valid = true ∧ s.pending = .reset :: [] ∧ step s = .next (refBlock false []) ∧
    (refBlock false []).overflows [0x34] = false ∧ ([0x34] : List Byte) = 0x34 :: [] ∧
    exec (.append [0x34]) (refBlock false []) = .next (refBlock false [0x34]) ∧
    (refBlock false [0x34]).cfg.kindOf 0x34 = none := ⟨rfl, rfl, rfl, rfl, rfl, rfl, rfl⟩

/-- Each of the four conditions, and a configuration at the boundary that meets none. -/
theorem witness_InvalidConfigurationHasNoStep :
    (live { Config.ref with perm := Vector.replicate 16 0 } false []).cfg.valid = false ∧
    (live { Config.ref with opButtonUp := 0x07 } false []).cfg.valid = false ∧
    (live { Config.ref with opDialChange := 0x09 } false []).cfg.valid = false ∧
    (live (refCap 256) false []).cfg.valid = false ∧ (live (refCap 257) false []).cfg.valid = true := by decide

theorem witness_FaultIsStickyUntilReset :
    (stuckBlock []).fault = some .reservedCommand ∧ (stuckBlock []).cfg.valid = true ∧
    (∀ es, (stuckBlock []).pending ≠ .reset :: es) ∧
    (stuckBlock [.reset]).fault = some .reservedCommand ∧ (stuckBlock [.reset]).cfg.valid = true ∧
    (stuckBlock [.reset]).pending = .reset :: [] ∧ step (stuckBlock [.reset]) = .next (refBlock false []) :=
  ⟨rfl, by decide, by simp, rfl, by decide, rfl, rfl⟩

theorem witness_ReservedCommandIsRefusedForGood :
    (refBlock true [0x02]).Live ∧ 0xD ≤ ({ cmd := 0xD } : Request).cmd.toNat ∧
    0xD ≤ ({ cmd := 0xF } : Request).cmd.toNat := ⟨refBlock_live _ _, by decide, by decide⟩

theorem witness_FaultsComeInTheFixedOrder :
    (live (refCap 256) false []).cfg.valid = false ∧ (live (refCap 257) true []).Live ∧
    0xD ≤ ({ cmd := 0xD, bytes := List.replicate 258 0x41 } : Request).cmd.toNat ∧
    (live (refCap 257) true []).overflows (List.replicate 258 0x41) = true :=
  ⟨by decide, capBlock_live _ _, by decide, by decide +kernel⟩

theorem witness_OnlyOverflowAndReservedCodesFault :
    (∃ t, exec .reservedD (refBlock true []) = .next t ∧ t.fault ≠ none) ∧
    (∃ t, exec (.append (List.replicate 258 0x09)) (live (refCap 257) true []) = .next t ∧ t.fault ≠ none) :=
  ⟨next_with (fun t => t.fault ≠ none) (by decide), next_with (fun t => t.fault ≠ none) (by decide +kernel)⟩

theorem witness_ConfigurationIsNeverWritten :
    (∃ t, exec .take (refBlock true [0x02, 0x05]) = .next t) ∧ (∃ t, step (stuckBlock [.reset]) = .next t) :=
  ⟨⟨_, rfl⟩, ⟨_, rfl⟩⟩

theorem witness_StepRunsThePresentedInstruction :
    { refBlock true [0x02] with pending := [.command { cmd := 0x1 }] }.pending = .command { cmd := 0x1 } :: [] ∧
    { refBlock true [0x02] with pending := [.send .syncExit] }.pending = .send .syncExit :: [] := ⟨rfl, rfl⟩

theorem witness_TakeRunsWhatStandsAtTheHead :
    decode (refBlock false [0x02, 0x05]).cfg (.inbound (refBlock false [0x02, 0x05]).buf) = .ok (.buttondown 5, []) ∧
    decode (refBlock false [0x09]).cfg (.inbound (refBlock false [0x09]).buf) = .ok (.skip 0x09, []) := ⟨rfl, rfl⟩

theorem witness_IdleStepHoldsTheState :
    (refBlock true [0x02]).Live ∧ (refBlock true [0x02]).pending = [] := ⟨refBlock_live _ _, rfl⟩

theorem witness_ResetMeetsTheInvariant : Config.ident.valid = true ∧ (refCap 257).valid = true := by decide

/-- A full bounded buffer, from which a step takes one byte. -/
theorem witness_EveryStepKeepsTheInvariant :
    let s := { live (refCap 257) true (List.replicate 257 0x41) with pending := [.command { cmd := 0x1 }] }
    s.Inv ∧ (∃ t, step s = .next t) ∧ (∃ t, exec .take s = .next t) :=
  ⟨⟨show (refCap 257).valid = true by decide, capBlock_fits true (List.replicate 257 0x41) (by decide +kernel)⟩,
    next_any (by decide +kernel), next_any (by decide +kernel)⟩

theorem witness_BufferChangesOnlyAtItsEnds :
    (∃ t, exec (.append [0x05]) (live (refCap 257) true (List.replicate 256 0x41)) = .next t ∧ t.fault = none) ∧
    (live (refCap 257) true (List.replicate 256 0x41)).BufFits ∧
    (∃ t, exec .take (refBlock true [0x02, 0x05]) = .next t ∧ t.fault = none) ∧
    (∃ t, exec (.rotl 1) (refBlock true [0x02, 0x05]) = .next t ∧ t.fault = none) :=
  ⟨next_with (fun t => t.fault = none) (by decide +kernel), capBlock_fits _ _ (by decide +kernel), ⟨_, rfl, rfl⟩,
    ⟨_, rfl, rfl⟩⟩

/-- A block with a buffer of 257 bytes that holds `n` bytes. -/
def held (n : Nat) : State := live (refCap 257) true (List.replicate n 0x41)

/-- It holds `n` bytes. -/
theorem held_length (n : Nat) : (held n).buf.length = n := List.length_replicate ..

/-- Its capacity is 257. -/
theorem held_cap {n cap : Nat} (h : (held n).cfg.bufCap = some cap) : cap = 257 := (Option.some.inj h).symm

/-- Exactly full is no overflow, one byte more is one. -/
theorem witness_AppendAddsAtTheTailOrOverflows :
    ({ cmd := 0x0, bytes := [0x41] } : Request).cmd = 0x0 ∧ (held 256).Live ∧ (held 256).BufFits ∧
    (held 256).cfg.bufCap = some 257 ∧
    (∀ cap, (held 256).cfg.bufCap = some cap → (held 256).buf.length + ([0x41] : List Byte).length ≤ cap) ∧
    257 < (held 256).buf.length + ([0x41, 0x02] : List Byte).length := by
  refine ⟨rfl, capBlock_live _ _, fun cap h => ?_, rfl, fun cap h => ?_, ?_⟩
  · rw [held_length, held_cap h]; decide
  · rw [held_length, held_cap h]; decide
  · rw [held_length]; decide

theorem witness_AppendsFollowEachOther :
    (live (refCap 257) true (List.replicate 255 0x41)).Live ∧
    (live (refCap 257) true (List.replicate 255 0x41)).overflows ([0x41] ++ [0x42]) = false :=
  ⟨capBlock_live _ _, by decide +kernel⟩

theorem witness_TakeOfAnEmptyBufferIsIncomplete :
    (refBlock false []).Live ∧ (refBlock false []).buf = [] ∧ (refBlock true []).Live ∧ (refBlock true []).buf = [] :=
  ⟨refBlock_live _ _, rfl, refBlock_live _ _, rfl⟩

/-- Both ends of the range that is unrecognised under every configuration, and the two more of `REFCFG`. -/
theorem witness_TakeSkipsOneUnrecognisedByte :
    (refBlock false [0x09]).Live ∧ (refBlock false [0x09]).buf = 0x09 :: [] ∧ Config.ref.kindOf 0x09 = none ∧
    (∀ b ∈ ([0x05, 0x06, 0x09, 0xFF] : List Byte), (refBlock true [0x05, 0x06, 0x09, 0xFF]).cfg.kindOf b = none) :=
  ⟨refBlock_live _ _, rfl, by decide, by decide⟩

/-- L = 0, L = 255, the opcode alone, and 254 bytes of 255. -/
theorem witness_TakeOfADebugFrame :
    (refBlock false [0x00, 0x00]).Live ∧
    (refBlock false [0x00, 0x00]).buf = 0x00 :: 0x00 :: ([] ++ []) ∧ ([] : List Byte).length = (0x00 : Byte).toNat ∧
    (refBlock false (0x00 :: 0xFF :: (List.replicate 255 0x0A ++ [0x02]))).buf =
      0x00 :: 0xFF :: (List.replicate 255 0x0A ++ [0x02]) ∧
    (List.replicate 255 (0x0A : Byte)).length = (0xFF : Byte).toNat ∧ (refBlock false [0x00]).buf = [0x00] ∧
    (List.replicate 254 (0x0A : Byte)).length < (0xFF : Byte).toNat :=
  ⟨refBlock_live _ _, rfl, rfl, rfl, by decide +kernel, rfl, by decide +kernel⟩

theorem witness_TakeOfASyncgridFrame :
    (refBlock false [0x01, 1, 2, 3, 4, 5, 6, 7, 8]).Live ∧
    (refBlock false [0x01, 1, 2, 3, 4, 5, 6, 7, 8]).buf =
      0x01 :: ((#v[1, 2, 3, 4, 5, 6, 7, 8] : Wire).toList ++ []) ∧
    (refBlock true [0x01, 1, 2, 3, 4, 5, 6, 7]).buf = 0x01 :: [1, 2, 3, 4, 5, 6, 7] ∧
    ([1, 2, 3, 4, 5, 6, 7] : List Byte).length < 8 := ⟨refBlock_live _ _, rfl, rfl, by decide⟩

/-- The four frames of one payload byte, with their opcodes under `REFCFG`. -/
def oneByteFrames (x : Byte) : List (Byte × Frame) :=
  [(0x02, .buttondown x), (Config.ref.opButtonUp, .buttonup x), (Config.ref.opPadDown, .padDown x),
    (Config.ref.opPadUp, .padUp x)]

/-- Each of the four opcodes, at payload values 0, 5, 64 and 255. -/
theorem witness_TakeOfTheOneByteFrames :
    (∀ x, ((0x02 : Byte), Frame.buttondown x) ∈ oneByteFrames x ∧ ((0x03 : Byte), Frame.buttonup x) ∈ oneByteFrames x ∧
      ((0x04 : Byte), Frame.padDown x) ∈ oneByteFrames x ∧ ((0x07 : Byte), Frame.padUp x) ∈ oneByteFrames x) ∧
    (∀ op ∈ ([0x02, 0x03, 0x04, 0x07] : List Byte), ∀ x ∈ ([0, 5, 64, 255] : List Byte),
      (refBlock true [op, x]).Live ∧ (refBlock true [op, x]).buf = op :: x :: [] ∧ (refBlock true [op]).buf = [op]) :=
  ⟨fun _ => ⟨.head _, .tail _ (.head _), .tail _ (.tail _ (.head _)), .tail _ (.tail _ (.tail _ (.head _)))⟩,
    fun _ _ _ _ => ⟨refBlock_live _ _, rfl, rfl⟩⟩

theorem witness_TakeOfADialchangeFrame :
    (refBlock true [0x08, 0x02, 0xFF]).Live ∧
    (refBlock true [0x08, 0x02, 0xFF]).buf = (refBlock true []).cfg.opDialChange :: 0x02 :: 0xFF :: [] ∧
    (refBlock true [0x08, 0x02]).buf = (refBlock true []).cfg.opDialChange :: [0x02] ∧
    ([0x02] : List Byte).length < 2 := ⟨refBlock_live _ _, rfl, rfl, by decide⟩

theorem witness_GateReportsFramesByReadiness :
    (refBlock false [0x02, 0x05]).Live ∧ decodeHead Config.ref [0x02, 0x05] = .frame (.buttondown 5) ∧
    decodeHead Config.ref [0x00, 0x01, 0x0A] = .frame (.debug [0x0A]) := ⟨refBlock_live _ _, rfl, rfl⟩

theorem witness_ReadyIsSetByTheMarkerOnly :
    (∃ t, exec .take (refBlock false [0x00, 0x01, 0x0A]) = .next t ∧ t.ready ≠ false) ∧
    (refBlock false [0x00, 0x01, 0x0A]).Live ∧
    decodeHead Config.ref [0x00, 0x01, 0x0A] = .frame (.debug [0x0A]) ∧
    Config.ref.marker.accepts [0x0A] = true ∧
    (∃ t, step (refBlock true [0x02]) = .next t) ∧ (∀ es, (refBlock true [0x02]).pending ≠ .reset :: es) ∧
    (∃ t, exec .take (refBlock true [0x02, 0x05]) = .next t) :=
  ⟨⟨_, rfl, by decide⟩, refBlock_live _ _, rfl, by decide, ⟨_, rfl⟩, by simp [live, State.resetWith], ⟨_, rfl⟩⟩

/-- The three cases, the third at one byte short of a frame. -/
theorem witness_IncompleteInExactlyThreeCases :
    (refBlock true [0x01, 0, 0, 0, 0, 0, 0, 0]).Live ∧ (refBlock true []).buf = [] ∧
    (refBlock true [0x00]).buf = [0x00] ∧
    frameLen Config.ref [0x01, 0, 0, 0, 0, 0, 0, 0] = some 9 ∧
    (∃ t, exec .take (refBlock true [0x01, 0, 0, 0, 0, 0, 0, 0]) = .next t ∧ t.result = .token .incomplete) :=
  ⟨refBlock_live _ _, rfl, rfl, rfl, ⟨_, rfl, rfl⟩⟩

theorem witness_IncompleteTakeIsIdempotent :
    ∃ t, exec .take (refBlock true [0x00, 0x03, 0x61]) = .next t ∧ t.result = .token .incomplete := ⟨_, rfl, rfl⟩

theorem witness_TakeRemovesExactlyItsTokensBytes :
    (refBlock false [0x02, 0x05, 0x03]).Live ∧ (refBlock false [0x02]).Live := ⟨refBlock_live _ _, refBlock_live _ _⟩

theorem witness_BytesAtTheTailDoNotChangeATake :
    ∃ t, exec .take (refBlock false [0x02, 0x05]) = .next t ∧ t.result ≠ .token .incomplete := ⟨_, rfl, by decide⟩

theorem witness_DrainEndsWithIncomplete :
    (refBlock false [0x02, 0x01, 0x09, 0x02]).Live ∧
    (drain (refBlock false [0x02, 0x01, 0x09, 0x02])).1 = [.discarded (.buttondown 1), .skipped 0x09] :=
  ⟨refBlock_live _ _, by decide +kernel⟩

/-- A parse of [0x02, 0x01, 0x09, 0x02]: a frame, a skipped byte, an incomplete tail. -/
theorem witness_DrainReturnsTheUniqueParse :
    (refBlock false [0x02, 0x01, 0x09, 0x02]).Live ∧
    IsParse Config.ref [0x02, 0x01, 0x09, 0x02] [.frame (.buttondown 1), .skipped 0x09] [0x02] :=
  ⟨refBlock_live _ _, ⟨by simp [IsItem, wellFormed, Frame.toInstr]; decide, rfl, rfl⟩⟩

theorem witness_ChunkingDoesNotChangeTheTokens :
    (held 254).Live ∧ ([[0x02], [], [0x05, 0x00]] : List (List Byte)) ≠ [] ∧
    (∀ cap, (held 254).cfg.bufCap = some cap →
      (held 254).buf.length + ([[0x02], [], [0x05, 0x00]] : List (List Byte)).flatten.length ≤ cap) := by
  refine ⟨capBlock_live _ _, by decide, fun cap h => ?_⟩
  rw [held_length, held_cap h]; decide

/-- The longest rest: 256 bytes of a frame of 257. -/
theorem witness_DrainLeavesAtMost256Bytes :
    let s := refBlock true (0x00 :: 0xFF :: List.replicate 254 0x41)
    s.Live ∧ (drain s).2.buf.length = 256 ∧ (∃ t, exec (.append [0x41]) (drain s).2 = .next t) :=
  ⟨refBlock_live _ _, by decide +kernel, next_any (by decide +kernel)⟩

/-- A valid configuration, for the statements on encodings and decoding; and an unrecognised opcode. -/
theorem witness_RecognisedOpcodesAreExactlySeven :
    Config.ref.valid = true ∧ Config.ref.kindOf 0x08 = some .dialchange := by decide

theorem witness_UnrecognisedOpcodesAreTheRest :
    Config.ref.valid = true ∧ 0x09 ≤ (0x09 : Byte).toNat ∧ 0x09 ≤ (0xFF : Byte).toNat ∧ 0x03 ≤ (0x05 : Byte).toNat ∧
    (0x05 : Byte).toNat ≤ 0x08 ∧ Config.ref.kindOf 0x05 = none ∧ Config.ref.kindOf 0x08 ≠ none := by decide

theorem witness_FrameLengthsAreThoseOfTheTable :
    Config.ref.valid = true ∧ Config.ref.kindOf 0x06 = none ∧ Config.ref.kindOf 0x09 = none ∧
    (refBlock false [0x08, 0x02, 0xFF]).Live ∧ frameLen Config.ref [0x08, 0x02, 0xFF] = some 3 ∧
    3 ≤ (refBlock false [0x08, 0x02, 0xFF]).buf.length :=
  ⟨by decide, by decide, by decide, refBlock_live _ _, rfl, by decide⟩

theorem witness_EveryInboundFormatDecodes :
    Config.ref.valid = true ∧ ([] : List Byte).length = (0x00 : Byte).toNat ∧
    (List.replicate 255 (0x00 : Byte)).length = (0xFF : Byte).toNat := by decide +kernel

/-- Every command code has a next state at a running block. -/
theorem witness_CommandCodesSelectTheirTransactions :
    ∀ n < 16, (after (exec (decodeCommand { cmd := BitVec.ofNat 4 n }) (refBlock false [0x02]))).isSome = true := by
  decide +kernel

theorem witness_DecodeOfEncodeIsTheInstruction :
    Config.ref.valid = true ∧ wellFormed Config.ref (.debug (List.replicate 255 0x0A)) = true ∧
    wellFormed Config.ref (.skip 0x05) = true ∧
    encode Config.ref (.dialchange 0x02 0xFF) = .inbound [0x08, 0x02, 0xFF] := by decide +kernel

theorem witness_EncodeOfDecodeIsTheBytes :
    Config.ref.valid = true ∧ decode Config.ref (.inbound [0x02, 0x05, 0x00]) = .ok (.buttondown 5, [0x00]) ∧
    decode Config.ref (.outbound [0x06, 0x00]) = .ok (.syncEnter, [0x00]) := ⟨by decide, rfl, rfl⟩

/-- Wire bit 63 in byte 7, and byte 7 full with zeros elsewhere. -/
theorem witness_UnpackReadsTheWireThroughTheTable :
    ({ cmd := 0x2 } : Request).cmd = 0x2 ∧ (refBlock false []).Live ∧
    8 * 7 + 7 = 4 * Config.ref.permAt 12 + 3 ∧
    (∀ i < 8, (#v[0, 0, 0, 0, 0, 0, 0, 0xFF] : Wire).toList.getD i 0 = if i = 7 then 0xFF else 0x00) :=
  ⟨rfl, refBlock_live _ _, by decide, by decide⟩

theorem witness_PackWritesTheWireThroughTheTable :
    ({ cmd := 0x3 } : Request).cmd = 0x3 ∧ (live refMsb false []).Live ∧
    8 * 7 + 7 = 4 * refMsb.permAt 12 + 3 ∧ 8 * 0 + 0 = 4 * refMsb.permAt 9 + 0 :=
  ⟨rfl, ⟨by decide, rfl⟩, by decide, by decide⟩

theorem witness_CodecRoundTrips : (refBlock false [0x02]).Live ∧ (live refMsb true []).Live :=
  ⟨refBlock_live _ _, ⟨by decide, rfl⟩⟩

theorem witness_SyncgridOfOneFullByteDecodes :
    (refBlock true [0x01, 0xFF, 0, 0, 0, 0, 0, 0, 0, 0x02]).Live ∧
    (refBlock true [0x01, 0xFF, 0, 0, 0, 0, 0, 0, 0, 0x02]).ready = true ∧
    (refBlock true [0x01, 0xFF, 0, 0, 0, 0, 0, 0, 0, 0x02]).buf = [0x01, 0xFF, 0, 0, 0, 0, 0, 0, 0] ++ [0x02] :=
  ⟨refBlock_live _ _, rfl, rfl⟩

theorem witness_OutboundFormats : (refBlock false [0x02]).Live := refBlock_live _ _

theorem witness_OutboundFramesAreAssembled : (refBlock false [0x02]).Live := refBlock_live _ _

theorem witness_TransformsReadOnlyTheirGrid :
    (refBlock false [0x02]).Live ∧
    Instr.shd ∈ [Instr.invert, .rotl, .rotr, .flipv, .fliph, .shl, .shr, .shu, .shd] :=
  ⟨refBlock_live _ _, by simp⟩

/-- Column 7 and row 7 are within the ranges. -/
theorem witness_InvertComplementsEveryCell :
    ({ cmd := 0x4 } : Request).cmd = 0x4 ∧ (refBlock false []).Live ∧ (7 : Nat) < 8 :=
  ⟨rfl, refBlock_live _ _, by decide⟩

theorem witness_RotationsMoveCellsByQuarterTurns :
    ({ cmd := 0x5 } : Request).cmd = 0x5 ∧ ({ cmd := 0x6 } : Request).cmd = 0x6 ∧ (refBlock false []).Live ∧
    (7 : Nat) < 8 := ⟨rfl, rfl, refBlock_live _ _, by decide⟩

theorem witness_FlipsReverseRowsAndColumns :
    ({ cmd := 0x7 } : Request).cmd = 0x7 ∧ ({ cmd := 0x8 } : Request).cmd = 0x8 ∧ (refBlock false []).Live ∧
    (7 : Nat) < 8 := ⟨rfl, rfl, refBlock_live _ _, by decide⟩

theorem witness_ShiftsRotateRowsAndColumns :
    ({ cmd := 0x9 } : Request).cmd = 0x9 ∧ ({ cmd := 0xC } : Request).cmd = 0xC ∧ (refBlock false []).Live ∧
    (7 : Nat) < 8 := ⟨rfl, rfl, refBlock_live _ _, by decide⟩

theorem witness_CodecAndTransformsWriteNoState :
    (∃ t, exec (.unpack (Vector.replicate 8 0)) (refBlock true [0x02]) = .next t) ∧
    (∃ t, exec (Outbound.toInstr .syncExit) (refBlock true [0x02]) = .next t) ∧
    (∃ t, exec (.shd 1) (refBlock true [0x02]) = .next t) := ⟨⟨_, rfl⟩, ⟨_, rfl⟩, ⟨_, rfl⟩⟩

end Sys2Proof.Tests
end

section
/-! The buffer under one instruction (10_state.md R31): what it can become, and that it stays within `BUF_CAP`. -/

namespace Sys2Proof.Machine

/-- The same configuration and no more bytes keep the buffer within `BUF_CAP`. -/
theorem State.BufFits.of_length_le {s t : State} (hs : s.BufFits) (hcfg : t.cfg = s.cfg)
    (hlen : t.buf.length ≤ s.buf.length) : t.BufFits := by
  intro cap hcap
  exact hlen.trans (hs cap (hcfg ▸ hcap))

/-- An APPEND that does not overflow leaves the buffer within `BUF_CAP` (R100). -/
theorem bufFits_of_not_overflows {s t : State} {bs : List Byte} (ho : s.overflows bs = false)
    (hcfg : t.cfg = s.cfg) (hbuf : t.buf = s.buf ++ bs) : t.BufFits := by
  intro cap hcap
  by_contra hlt
  rw [hbuf, List.length_append, Nat.not_le] at hlt
  have : s.overflows bs = true := (overflows_eq_true_iff s bs).2 ⟨cap, hcfg ▸ hcap, hlt⟩
  simp [ho] at this

/-- Everything an instruction that answers a next state can have done to the buffer, a recorded fault included: an
APPEND that fits adds at the tail; TAKE, a frame or SKIP removes from the head; else the buffer is as before. -/
theorem exec_buf_cases {i : Instr} {s t : State} (h : exec i s = .next t) :
    (∃ bs, i = .append bs ∧ s.overflows bs = false ∧ t.buf = s.buf ++ bs) ∨
      ((i = .take ∨ (∃ f, i = Frame.toInstr f) ∨ ∃ b, i = .skip b) ∧ ∃ n, t.buf = s.buf.drop n) ∨
      t.buf = s.buf := by
  obtain ⟨-, -, h⟩ := exec_cases h
  rcases h with ⟨f, hi, h⟩ | ⟨b, hi, h⟩ | ⟨-, -, rfl⟩ | ⟨bs, hi, ho, rfl⟩ | ⟨bs, -, -, rfl⟩ | ⟨-, rfl⟩ | ⟨-, r, -, rfl⟩
  case inl =>
    cases h
    exact .inr (.inl ⟨hi.elim (fun hf => .inr (.inl ⟨f, hf⟩)) (fun ht => .inl ht.1), f.length, rfl⟩)
  case inr.inl =>
    cases h
    exact .inr (.inl ⟨hi.elim (fun hb => .inr (.inr ⟨b, hb⟩)) (fun ht => .inl ht.1), 1, rfl⟩)
  case inr.inr.inr.inl => exact .inl ⟨bs, hi, ho, rfl⟩
  all_goals exact .inr (.inr rfl)

/-- Every instruction keeps the buffer within `BUF_CAP` (R31 iii). -/
theorem exec_keeps_bufFits {i : Instr} {s t : State} (h : exec i s = .next t) (hs : s.BufFits) : t.BufFits := by
  obtain ⟨hcfg, -⟩ := exec_keeps_cfg h
  rcases exec_buf_cases h with ⟨bs, -, ho, hbuf⟩ | ⟨-, n, hbuf⟩ | hbuf
  · exact bufFits_of_not_overflows ho hcfg hbuf
  · exact hs.of_length_le hcfg (by simp [hbuf])
  · exact hs.of_length_le hcfg (by rw [hbuf])

/-- Settles O14: (i) and (ii) hold by the types, (iii) is `exec_keeps_bufFits` and (iv) is `exec_buf_cases`. -/
theorem bufferChangesOnlyAtItsEnds : Obligations.BufferChangesOnlyAtItsEnds := by
  intro i s t h _
  refine ⟨Bool.eq_false_or_eq_true t.ready |>.symm, fun b _ => Nat.le_of_lt_succ b.isLt, exec_keeps_bufFits h, ?_⟩
  rcases exec_buf_cases h with ⟨bs, hi, -, hbuf⟩ | htaken | hsame
  · exact .inl ⟨bs, hi, hbuf⟩
  · exact .inr (.inl htaken)
  · exact .inr (.inr hsame)

end Sys2Proof.Machine
end

section
/-! The recognised opcodes (30_encoding.md R61): they are the opcodes of the seven kinds, so under a valid
configuration there are seven of them. -/

namespace Sys2Proof

/-- The seven kinds, in the order of R61. -/
def Kind.all : List Kind := [.debug, .syncgrid, .buttondown, .buttonup, .padDown, .padUp, .dialchange]

theorem Kind.mem_all (k : Kind) : k ∈ Kind.all := by cases k <;> decide

theorem Kind.all_nodup : Kind.all.Nodup := by decide

theorem Config.kindOf_isSome_iff {c : Config} (hc : c.valid = true) (op : Byte) :
    (c.kindOf op).isSome = true ↔ ∃ k, op = c.opcode k := by
  simp only [Option.isSome_iff_exists, Config.kindOf_eq_some_iff hc]

/-- The recognised byte values are the opcodes of the kinds, each once. -/
theorem Config.recognised_perm_opcodes {c : Config} (hc : c.valid = true) :
    ((List.range 256).filter fun n => (c.kindOf (BitVec.ofNat 8 n)).isSome).Perm
      (Kind.all.map fun k => (c.opcode k).toNat) := by
  have hinj : Function.Injective fun k => (c.opcode k).toNat := fun j k h =>
    Config.opcode_injective hc (BitVec.eq_of_toNat_eq h)
  refine (List.perm_ext_iff_of_nodup (List.nodup_range.filter _) (Kind.all_nodup.map hinj)).2 fun n => ?_
  rw [List.mem_filter, List.mem_range, Config.kindOf_isSome_iff hc, List.mem_map]
  constructor
  · rintro ⟨hn, k, hk⟩
    exact ⟨k, k.mem_all, by rw [← hk, BitVec.toNat_ofNat, Nat.mod_eq_of_lt hn]⟩
  · rintro ⟨k, -, rfl⟩
    exact ⟨(c.opcode k).isLt, k, by simp⟩

/-- Settles O33: the opcode table is injective, so its seven opcodes are the recognised bytes, each once. -/
theorem recognisedOpcodesAreExactlySeven : Obligations.RecognisedOpcodesAreExactlySeven := by
  intro c hc
  have hcount := (Config.recognised_perm_opcodes hc).length_eq
  exact ⟨Config.kindOf_eq_some_iff hc, fun j k => Config.opcode_injective hc, rfl, rfl, rfl, rfl, rfl, rfl, rfl, hcount⟩

end Sys2Proof
end

section
/-! Frame lengths (30_encoding.md R62, R75), and that a TAKE removes what stands at the head of `buf`, whatever `ready`
is. -/

namespace Sys2Proof

theorem frameLen_of_none {c : Config} {b : Byte} {rest : List Byte} (h : c.kindOf b = none) :
    frameLen c (b :: rest) = none := by simp [frameLen, h]

/-- A length is defined only where the head byte is recognised (R75). -/
theorem frameLen_eq_some {c : Config} {buf : List Byte} {n : Nat} (h : frameLen c buf = some n) :
    ∃ b rest k, buf = b :: rest ∧ c.kindOf b = some k := by
  cases buf with
  | nil => cases h
  | cons b rest =>
    cases hk : c.kindOf b with
    | none => rw [frameLen_of_none hk] at h; cases h
    | some k => exact ⟨b, rest, k, rfl, hk⟩

/-- The length of a kind other than DEBUG, from its opcode alone (R62). -/
theorem frameLen_opcode {c : Config} (hc : c.valid = true) (k : Kind) (hne : k ≠ .debug) (rest : List Byte) :
    frameLen c (c.opcode k :: rest) = some k.fixedLength := frameLen_fixed (Config.kindOf_opcode hc k) hne

/-- How many bytes a TAKE removes for what it finds at the head (R102). -/
def Head.consumed : Head → Nat
  | .incomplete => 0
  | .skipped _ => 1
  | .frame f => f.length

/-- A frame that is wholly present counts for exactly `frame_len` bytes (R75). -/
theorem consumed_decodeHead_of_frameLen {c : Config} {buf : List Byte} {n : Nat} (hn : frameLen c buf = some n)
    (hl : n ≤ buf.length) : (decodeHead c buf).consumed = n := by
  obtain ⟨b, rest, k, rfl, hk⟩ := frameLen_eq_some hn
  rw [decodeHead_whole hk hn hl]
  exact parse_length hk hn hl

namespace Machine

/-- A TAKE in a state that can run removes exactly what stands at the head of `buf` (R102). -/
theorem exec_take_buf {s : State} (hs : s.Live) :
    ∃ t, exec .take s = .next t ∧ t.buf = s.buf.drop (decodeHead s.cfg s.buf).consumed := by
  rw [exec_take, execTake_live hs.config hs.noFault]
  cases decodeHead s.cfg s.buf with
  | incomplete | skipped b | frame f => exact ⟨_, rfl, rfl⟩

/-- Settles O35: the lengths are read off the opcode table, and what a TAKE removes is a function of the configuration
and `buf` (`exec_take_buf`), in which `ready` does not occur. -/
theorem frameLengthsAreThoseOfTheTable : Obligations.FrameLengthsAreThoseOfTheTable := by
  refine ⟨fun c hc => ?_, fun s n hs hn hl => ?_, fun s ready hs => ?_⟩
  · have hlen := fun k hne rest => frameLen_opcode hc k hne rest
    exact ⟨rfl, rfl, fun op rest h => frameLen_of_none h, fun rest =>
      ⟨fun len => ⟨frameLen_debug c len rest, by omega⟩, hlen .syncgrid (by decide) rest, hlen .buttondown (by decide) rest,
        hlen .buttonup (by decide) rest, hlen .padDown (by decide) rest, hlen .padUp (by decide) rest,
        hlen .dialchange (by decide) rest⟩⟩
  · have htake := exec_take_buf hs
    rwa [consumed_decodeHead_of_frameLen hn hl] at htake
  · obtain ⟨t, ht, hbuf⟩ := exec_take_buf hs
    obtain ⟨u, hu, hbuf'⟩ := exec_take_buf (s := { s with ready := ready }) ⟨hs.config, hs.noFault⟩
    exact ⟨t, u, ht, hu, hbuf'.trans hbuf.symm⟩

end Machine
end Sys2Proof
end

section
/-! The outbound formats (30_encoding.md R71 to R73), and the grid update read back as a SYNCGRID frame. -/

namespace Sys2Proof

/-- Under a valid table UNPACK undoes PACK (41_grid_codec.md R135). -/
theorem unpackWire_packWire {c : Config} (hp : c.permBijective = true) (g : Grid) :
    unpackWire c (packWire c g) = g := by
  refine BitVec.eq_of_getLsbD_eq fun i hi => ?_
  have hj : i / 4 < 16 := by omega
  have hb : i % 4 < 4 := by omega
  have hq := Config.permAt_lt hp hj
  have hbit : (unpackWire c (packWire c g)).getLsbD (4 * (i / 4) + i % 4) = g.getLsbD (4 * (i / 4) + i % 4) := by
    rw [unpackWire_bit c _ hj hb, wireBit_packWire c g (by omega), packBit_permAt hp g hj hb]
  rwa [Nat.div_add_mod] at hbit

/-- A frame that the decoder finds at the head is what it reads, with the bytes after it left (R102). -/
theorem decode_inbound_frame {c : Config} {bs : List Byte} {f : Frame} (h : decodeHead c bs = .frame f) :
    decode c (.inbound bs) = .ok (f.toInstr, bs.drop f.length) := by
  rw [decode, decodeInbound, h]

/-- A SYNCGRID frame alone in the stream decodes to its instruction, with nothing left (R65). -/
theorem decode_syncgrid (c : Config) (w : Wire) : decode c (.inbound (0x01 :: w.toList)) = .ok (.syncgrid w, []) := by
  have hd : decodeHead c (0x01 :: w.toList) = .frame (.syncgrid w) := by simpa using decodeHead_syncgrid c w []
  rw [decode_inbound_frame hd, List.drop_eq_nil_of_le (by simp [Frame.length])]
  rfl

namespace Machine

/-- PACK in a state that can run returns the wire bytes and writes no other state (R134). -/
theorem exec_pack_live {s : State} (hs : s.Live) (g : Grid) :
    exec (.pack g) s = .next { s with result := .wire (packWire s.cfg g) } := by
  rw [exec_pack, transact_live hs.config hs.noFault]
  rfl

/-- Settles O45: the payload of a grid update is PACK's result, so its bytes are a SYNCGRID frame of that result
(`decode_syncgrid`), which UNPACK undoes (`unpackWire_packWire`). -/
theorem outboundFormats : Obligations.OutboundFormats := by
  refine ⟨fun s g hs => ?_, fun _ => rfl, fun _ => rfl⟩
  obtain ⟨hp, -⟩ := s.cfg.valid_iff.1 hs.config
  exact ⟨packWire s.cfg g, exec_pack_live hs g, rfl, by simp [outboundBytes], decode_syncgrid s.cfg _,
    unpackWire_packWire hp g⟩

end Machine
end Sys2Proof
end

section
/-! TAKE by the head of `buf` (40_frame_decoder.md R102 to R114): what a frame, an unrecognised byte and an incomplete
head each make it do, and which buffers each of the three stands for. -/

namespace Sys2Proof

/-- The gate reports a frame other than DEBUG by `ready`, and leaves `ready` (R112). -/
theorem gate_of_ne_debug {f : Frame} (hne : ∀ msg, f ≠ .debug msg) (m : ReadyMarker) (ready : Bool) :
    gateToken ready f = (if ready then .frame f else .discarded f) ∧ readyAfter m ready f = ready := by
  cases f with
  | debug msg => exact absurd rfl (hne msg)
  | _ => exact ⟨rfl, rfl⟩

theorem readyAfter_debug (m : ReadyMarker) (ready : Bool) (msg : List Byte) :
    readyAfter m ready (.debug msg) = (ready || m.accepts msg) := by
  cases ready <;> simp [readyAfter]

theorem gateToken_ne_incomplete (ready : Bool) (f : Frame) : gateToken ready f ≠ .incomplete := by
  cases f <;> cases ready <;> simp [gateToken]

theorem Frame.length_pos (f : Frame) : 0 < f.length := by
  cases f <;> simp [Frame.length]

/-- A recognised head byte has no defined length only where it is a DEBUG opcode without its length byte (R75). -/
theorem frameLen_eq_none_iff {c : Config} {b : Byte} {rest : List Byte} {k : Kind} (hk : c.kindOf b = some k) :
    frameLen c (b :: rest) = none ↔ b :: rest = [0x00] := by
  by_cases hd : k = .debug
  · subst hd
    obtain rfl : b = 0x00 := Config.eq_opcode_of_kindOf hk
    cases rest with
    | nil => exact iff_of_true rfl rfl
    | cons len body =>
      rw [frameLen_debug]
      exact iff_of_false (by simp) (by simp)
  · have hb : b :: rest ≠ [0x00] := by
      rintro ⟨⟩
      exact hd (Option.some.inj hk).symm
    rw [frameLen_fixed hk hd]
    exact iff_of_false (by simp) hb

/-- The heads TAKE leaves alone are the three of R114. -/
theorem decodeHead_eq_incomplete_iff (c : Config) (buf : List Byte) : decodeHead c buf = .incomplete ↔
    buf = [] ∨ buf = [0x00] ∨ ∃ n, frameLen c buf = some n ∧ buf.length < n := by
  cases buf with
  | nil => simp
  | cons b rest =>
    cases hk : c.kindOf b with
    | none =>
      have hb : b :: rest ≠ [0x00] := by
        rintro ⟨⟩
        cases hk
      rw [decodeHead_of_none hk, frameLen_of_none hk]
      simpa using hb
    | some k =>
      rw [decodeHead_of_some hk, ← frameLen_eq_none_iff hk]
      cases frameLen c (b :: rest) with
      | none => simp
      | some n => simp

namespace Machine

theorem decodeCommand_take (r : Request) (h : r.cmd = 0x1) : decodeCommand r = .take := by
  simp [decodeCommand, h]

variable {s : State} (hs : s.Live)
include hs

/-- TAKE leaves an incomplete head (R102, R114). -/
theorem exec_take_of_incomplete (hd : decodeHead s.cfg s.buf = .incomplete) :
    exec .take s = .next { s with result := .token .incomplete } := by
  rw [exec_take, execTake_live hs.config hs.noFault, hd]
  rfl

/-- TAKE on an unrecognised head byte is SKIP of it (R104). -/
theorem exec_take_of_skipped {b : Byte} (hd : decodeHead s.cfg s.buf = .skipped b) : exec .take s = exec (.skip b) s := by
  rw [exec_take, execTake_live hs.config hs.noFault, hd, exec_skip, transact_live hs.config hs.noFault]

/-- TAKE on a whole frame is that frame's instruction (R102). -/
theorem exec_take_of_frame {f : Frame} (hd : decodeHead s.cfg s.buf = .frame f) : exec .take s = exec f.toInstr s := by
  rw [exec_take, execTake_live hs.config hs.noFault, hd, exec_toInstr, transact_live hs.config hs.noFault]

/-- SKIP in a state that can run removes the head byte, whichever byte it names (R104; log 9). -/
theorem exec_skip_live {b b' : Byte} {rest : List Byte} (hbuf : s.buf = b' :: rest) :
    exec (.skip b) s = .next { s with buf := rest, result := .token (.skipped b) } := by
  rw [exec_skip, transact_live hs.config hs.noFault, skipByte, hbuf]
  rfl

/-- A frame's bytes at the head, by TAKE or by the frame's instruction: they leave `buf`, and the gate reports the frame
(R102, R112, R113). -/
theorem exec_frame_at_head {f : Frame} {rest : List Byte} (hw : wellFormed s.cfg f.toInstr = true)
    (hbuf : s.buf = frameBytes s.cfg f ++ rest) {i : Instr} (hi : i ∈ [Instr.take, f.toInstr]) :
    exec i s = .next { s with
      buf := rest, ready := readyAfter s.cfg.marker s.ready f, result := .token (gateToken s.ready f) } := by
  have hd : decodeHead s.cfg s.buf = .frame f := hbuf ▸ decodeHead_frameBytes hs.config hw rest
  have hdrop : s.buf.drop f.length = rest := by rw [hbuf, ← frameBytes_length s.cfg f, List.drop_left]
  have hinstr : exec i s = exec f.toInstr s := by
    rcases List.mem_pair.1 hi with rfl | rfl
    · exact exec_take_of_frame hs hd
    · rfl
  rw [hinstr, exec_toInstr, transact_live hs.config hs.noFault, takeFrame, hdrop]
  rfl

/-- The same for a frame other than DEBUG: FRAME or DISCARDED by `ready`, which stays (R112). -/
theorem exec_gated_frame_at_head {f : Frame} {rest : List Byte} (hne : ∀ msg, f ≠ .debug msg)
    (hbuf : s.buf = frameBytes s.cfg f ++ rest) {i : Instr} (hi : i ∈ [Instr.take, f.toInstr]) :
    exec i s = .next { s with
      buf := rest, result := .token (if s.ready then .frame f else .discarded f) } := by
  have hw : wellFormed s.cfg f.toInstr = true := by
    cases f with
    | debug msg => exact absurd rfl (hne msg)
    | _ => rfl
  obtain ⟨htok, hready⟩ := gate_of_ne_debug hne s.cfg.marker s.ready
  rw [exec_frame_at_head hs hw hbuf hi, htok, hready]

/-- Fewer bytes than a kind of fixed length has are INCOMPLETE (R106 to R111). -/
theorem exec_take_of_short {k : Kind} (hne : k ≠ .debug) {body : List Byte} (hbuf : s.buf = s.cfg.opcode k :: body)
    (hl : body.length + 1 < k.fixedLength) : exec .take s = .next { s with result := .token .incomplete } := by
  refine exec_take_of_incomplete hs ?_
  rw [hbuf]
  exact decodeHead_short (Config.kindOf_opcode hs.config k) (frameLen_opcode hs.config k hne body) hl

/-- TAKE answers INCOMPLETE exactly on an incomplete head. -/
theorem exec_take_incomplete_iff :
    (∃ t, exec .take s = .next t ∧ t.result = .token .incomplete) ↔ decodeHead s.cfg s.buf = .incomplete := by
  constructor
  · rintro ⟨t, ht, hres⟩
    obtain ⟨-, -, ⟨hd, -⟩ | ⟨b, -, rfl⟩ | ⟨f, -, rfl⟩⟩ := execTake_cases ht
    · exact hd
    · cases hres
    · exact absurd (Result.token.inj hres) (gateToken_ne_incomplete s.ready f)
  · intro hd
    exact ⟨_, exec_take_of_incomplete hs hd, rfl⟩

end Machine
end Sys2Proof
end

section
/-! TAKE on each head (40_frame_decoder.md R103 to R111, R114): the statements. -/

namespace Sys2Proof.Machine

/-- Settles O17: an empty buffer is an incomplete head. -/
theorem takeOfAnEmptyBufferIsIncomplete : Obligations.TakeOfAnEmptyBufferIsIncomplete := by
  refine ⟨decodeCommand_take, fun s hs hbuf => exec_take_of_incomplete hs ?_⟩
  rw [hbuf, decodeHead_nil]

/-- Settles O25: the heads that TAKE leaves alone are those of `decodeHead_eq_incomplete_iff`. -/
theorem incompleteInExactlyThreeCases : Obligations.IncompleteInExactlyThreeCases := by
  intro s hs
  refine ⟨(exec_take_incomplete_iff hs).trans (decodeHead_eq_incomplete_iff _ _), fun t ht hres => ?_⟩
  have hd := (exec_take_incomplete_iff hs).1 ⟨t, ht, hres⟩
  rw [exec_take_of_incomplete hs hd] at ht
  cases ht
  rfl

/-- Settles O19: the DEBUG frame's bytes are at the head (`exec_frame_at_head`), or too few of them. -/
theorem takeOfADebugFrame : Obligations.TakeOfADebugFrame := by
  refine ⟨decodeCommand_take, fun s len msg rest hs hbuf hlen i hi => ?_, fun s hs hbuf => ?_,
    fun s len body hs hbuf hl => ?_⟩
  · have hw : wellFormed s.cfg (Frame.debug msg).toInstr = true := by
      have := len.isLt
      simp only [Frame.toInstr, wellFormed, decide_eq_true_eq]
      omega
    have hbytes : s.buf = frameBytes s.cfg (.debug msg) ++ rest := by
      simp [hbuf, frameBytes, Config.opcode, hlen]
    rw [exec_frame_at_head hs hw hbytes hi, readyAfter_debug]
    rfl
  · exact exec_take_of_incomplete hs ((decodeHead_eq_incomplete_iff _ _).2 (.inr (.inl hbuf)))
  · exact exec_take_of_incomplete hs (hbuf ▸ decodeHead_debug_short s.cfg hl)

/-- Settles O20: nine bytes are the frame's (`exec_gated_frame_at_head`), fewer are short of its fixed length. -/
theorem takeOfASyncgridFrame : Obligations.TakeOfASyncgridFrame := by
  refine ⟨decodeCommand_take, fun s w rest hs hbuf i hi => ?_, fun s body hs hbuf hl => ?_⟩
  · exact exec_gated_frame_at_head (f := .syncgrid w) hs (by simp) hbuf hi
  · exact exec_take_of_short (k := .syncgrid) hs (by simp) hbuf (Nat.succ_lt_succ hl)

/-- Settles O22: three bytes are the frame's (`exec_gated_frame_at_head`), fewer are short of its fixed length. -/
theorem takeOfADialchangeFrame : Obligations.TakeOfADialchangeFrame := by
  refine ⟨decodeCommand_take, fun s dial value rest hs hbuf i hi => ?_, fun s body hs hbuf hl => ?_⟩
  · exact exec_gated_frame_at_head (f := .dialchange dial value) hs (by simp) hbuf hi
  · exact exec_take_of_short (k := .dialchange) hs (by simp) hbuf (Nat.succ_lt_succ hl)

/-- The four frames of one payload byte: the opcode of a kind of length two, then the payload (R66 to R69). -/
theorem oneByteFrame_format {c : Config} {x op : Byte} {f : Frame}
    (h : (op, f) ∈ [((0x02 : Byte), Frame.buttondown x), (c.opButtonUp, .buttonup x), (c.opPadDown, .padDown x),
      (c.opPadUp, .padUp x)]) :
    (∀ msg, f ≠ .debug msg) ∧ frameBytes c f = [op, x] ∧
      ∃ k : Kind, k ≠ .debug ∧ op = c.opcode k ∧ k.fixedLength = 2 := by
  simp only [List.mem_cons, List.not_mem_nil, or_false, Prod.mk.injEq] at h
  rcases h with ⟨rfl, rfl⟩ | ⟨rfl, rfl⟩ | ⟨rfl, rfl⟩ | ⟨rfl, rfl⟩
  · exact ⟨by simp, rfl, .buttondown, by simp, rfl, rfl⟩
  · exact ⟨by simp, rfl, .buttonup, by simp, rfl, rfl⟩
  · exact ⟨by simp, rfl, .padDown, by simp, rfl, rfl⟩
  · exact ⟨by simp, rfl, .padUp, by simp, rfl, rfl⟩

/-- Settles O21: the four frames have one format (`oneByteFrame_format`), whole or short of its two bytes. -/
theorem takeOfTheOneByteFrames : Obligations.TakeOfTheOneByteFrames := by
  refine ⟨decodeCommand_take, fun s x rest op f hs hf => ?_⟩
  obtain ⟨hne, hbytes, k, hk, rfl, hlen⟩ := oneByteFrame_format hf
  constructor
  · intro hbuf i hi
    exact exec_gated_frame_at_head hs hne (by rw [hbuf, hbytes]; rfl) hi
  · intro hbuf
    exact exec_take_of_short hs hk hbuf (by simp [hlen])

/-- Unrecognised bytes are drained one SKIPPED each, by one TAKE more than there are bytes (R104, R115). -/
theorem drainUpTo_of_unrecognised (bs : List Byte) {s : State} (hs : s.Live) (hbuf : s.buf = bs)
    (hb : ∀ b ∈ bs, s.cfg.kindOf b = none) :
    drainUpTo (bs.length + 1) s = (bs.map Token.skipped, { s with buf := [], result := .token .incomplete }) := by
  induction bs generalizing s with
  | nil =>
    have hd : decodeHead s.cfg s.buf = .incomplete := by rw [hbuf, decodeHead_nil]
    rw [List.length_nil, drainUpTo_incomplete hs.config hs.noFault 0 hd]
    exact Prod.ext rfl (State.eq_of_fields rfl hbuf rfl rfl rfl rfl)
  | cons b bs ih =>
    have hd : decodeHead s.cfg s.buf = .skipped b := hbuf ▸ decodeHead_of_none (hb b List.mem_cons_self)
    have hrest := ih (s := (s.setBuf (s.buf.drop 1)).setResult (.token (.skipped b))) ⟨hs.config, hs.noFault⟩
      (by simp [hbuf]) fun b' h => hb b' (List.mem_cons_of_mem b h)
    rw [List.length_cons, drainUpTo_skipped hs.config hs.noFault _ hd, hrest]
    rfl

/-- Settles O18: TAKE runs the SKIP of the head byte, and the run of k bytes is `drainUpTo_of_unrecognised`. -/
theorem takeSkipsOneUnrecognisedByte : Obligations.TakeSkipsOneUnrecognisedByte := by
  refine ⟨decodeCommand_take, fun s b rest hs hbuf hb => ?_, fun s bs hs hbuf hb => ?_⟩
  · have hskip := exec_skip_live (b := b) hs hbuf
    exact ⟨(exec_take_of_skipped hs (hbuf ▸ decodeHead_of_none hb)).trans hskip, hskip⟩
  · subst hbuf
    exact drainUpTo_of_unrecognised s.buf hs rfl hb

end Sys2Proof.Machine
end

section
/-! Parses of a stream (40_frame_decoder.md R117): the decoder finds the first item of any parse, so a buffer has one
parse at most; and a DRAIN returns one. -/

namespace Sys2Proof.Machine

/-- What stands at the head, as an item of a parse. -/
def headToken : Head → Token
  | .incomplete => .incomplete
  | .skipped b => .skipped b
  | .frame f => .frame f

/-- An item's bytes at the head decode to that item, whatever follows (R102). -/
theorem headToken_of_isItem {c : Config} (hc : c.valid = true) {t : Token} (ht : IsItem c t) (rest : List Byte) :
    headToken (decodeHead c (tokenBytes c t ++ rest)) = t := by
  cases t with
  | frame f =>
    rw [tokenBytes, decodeHead_frameBytes hc ht]
    rfl
  | skipped b =>
    have hb : c.kindOf b = none := ht
    rw [tokenBytes, List.singleton_append, decodeHead_of_none hb]
    rfl
  | discarded f => exact ht.elim
  | incomplete => exact ht.elim

theorem isParse_nil_iff {c : Config} {buf tail : List Byte} :
    IsParse c buf [] tail ↔ tail = buf ∧ decodeHead c buf = .incomplete := by
  constructor
  · rintro ⟨-, hbytes, hends⟩
    obtain rfl : tail = buf := hbytes
    exact ⟨rfl, hends⟩
  · rintro ⟨rfl, hd⟩
    exact ⟨by simp, rfl, hd⟩

theorem isParse_cons_iff {c : Config} {buf tail : List Byte} {t : Token} {items : List Token} :
    IsParse c buf (t :: items) tail ↔
      IsItem c t ∧ ∃ rest, buf = tokenBytes c t ++ rest ∧ IsParse c rest items tail := by
  constructor
  · rintro ⟨heach, hbytes, hends⟩
    obtain ⟨ht, heach⟩ := List.forall_mem_cons.1 heach
    rw [List.flatMap_cons, List.append_assoc] at hbytes
    exact ⟨ht, _, hbytes.symm, heach, rfl, hends⟩
  · rintro ⟨ht, rest, rfl, heach, rfl, hends⟩
    exact ⟨List.forall_mem_cons.2 ⟨ht, heach⟩, by rw [List.flatMap_cons, List.append_assoc], hends⟩

/-- A buffer that begins with an item's bytes is no incomplete head. -/
theorem decodeHead_ne_incomplete_of_isItem {c : Config} (hc : c.valid = true) {t : Token} (ht : IsItem c t)
    (rest : List Byte) : decodeHead c (tokenBytes c t ++ rest) ≠ .incomplete := by
  intro hd
  have htok := headToken_of_isItem hc ht rest
  rw [hd] at htok
  subst htok
  exact ht

/-- There is at most one parse: both begin with the item that the decoder finds at the head, or with none. -/
theorem IsParse.unique {c : Config} (hc : c.valid = true) {buf tail tail' : List Byte} {items items' : List Token}
    (h : IsParse c buf items tail) (h' : IsParse c buf items' tail') : items = items' ∧ tail = tail' := by
  induction items generalizing buf items' with
  | nil =>
    obtain ⟨rfl, hd⟩ := isParse_nil_iff.1 h
    cases items' with
    | nil => exact ⟨rfl, (isParse_nil_iff.1 h').1.symm⟩
    | cons t' items' =>
      obtain ⟨ht', rest', rfl, -⟩ := isParse_cons_iff.1 h'
      exact absurd hd (decodeHead_ne_incomplete_of_isItem hc ht' rest')
  | cons t items ih =>
    obtain ⟨ht, rest, rfl, hrest⟩ := isParse_cons_iff.1 h
    cases items' with
    | nil => exact absurd (isParse_nil_iff.1 h').2 (decodeHead_ne_incomplete_of_isItem hc ht rest)
    | cons t' items' =>
      obtain ⟨ht', rest', hbuf, hrest'⟩ := isParse_cons_iff.1 h'
      have hsame : t = t' := by
        rw [← headToken_of_isItem hc ht rest, hbuf, headToken_of_isItem hc ht' rest']
      subst hsame
      obtain rfl := List.append_cancel_left hbuf
      obtain ⟨rfl, rfl⟩ := ih hrest hrest'
      exact ⟨rfl, rfl⟩

theorem bareToken_gateToken (ready : Bool) (f : Frame) : bareToken (gateToken ready f) = .frame f := by
  cases f <;> cases ready <;> rfl

/-- More TAKEs than there are bytes parse the buffer: each consumes the item at the head, until an incomplete tail
(R116, R117). -/
theorem isParse_drainUpTo (n : Nat) {s : State} (hs : s.Live) (hn : s.buf.length < n) :
    IsParse s.cfg s.buf ((drainUpTo n s).1.map bareToken) (drainUpTo n s).2.buf := by
  induction n generalizing s with
  | zero => exact absurd hn (Nat.not_lt_zero _)
  | succ n ih =>
    obtain ⟨hc, hf⟩ := hs
    cases hd : decodeHead s.cfg s.buf with
    | incomplete =>
      rw [drainUpTo_incomplete hc hf n hd]
      exact isParse_nil_iff.2 ⟨rfl, hd⟩
    | skipped b =>
      obtain ⟨rest, hbuf, hb⟩ := decodeHead_eq_skipped hd
      rw [drainUpTo_skipped hc hf n hd]
      have hlen : (s.buf.drop 1).length < n := by
        rw [hbuf, List.length_cons] at hn
        rw [hbuf, List.drop_one, List.tail_cons]
        omega
      have hrest := ih (s := (s.setBuf (s.buf.drop 1)).setResult (.token (.skipped b))) ⟨hc, hf⟩ hlen
      exact isParse_cons_iff.2 ⟨hb, s.buf.drop 1, by rw [hbuf]; rfl, hrest⟩
    | frame f =>
      obtain ⟨hw, hbuf⟩ := frameBytes_of_decodeHead hd
      rw [drainUpTo_frame hc hf n hd]
      have hlen : (s.buf.drop f.length).length < n := by
        have hpos := Frame.length_pos f
        have htotal := congrArg List.length hbuf
        rw [List.length_append, frameBytes_length] at htotal
        omega
      have hrest := ih (s := ((s.setBuf (s.buf.drop f.length)).setReady
        (readyAfter s.cfg.marker s.ready f)).setResult (.token (gateToken s.ready f))) ⟨hc, hf⟩ hlen
      rw [List.map_cons, bareToken_gateToken]
      exact isParse_cons_iff.2 ⟨hw, s.buf.drop f.length, hbuf, hrest⟩

/-- Settles O30: a DRAIN parses (`isParse_drainUpTo`), and a buffer has one parse only (`IsParse.unique`). -/
theorem drainReturnsTheUniqueParse : Obligations.DrainReturnsTheUniqueParse := by
  intro s hs
  have hparse := isParse_drainUpTo (s.buf.length + 1) hs (Nat.lt_succ_self _)
  exact ⟨hparse, fun items tail h => h.unique hs.config hparse⟩

end Sys2Proof.Machine
end

section
/-! The codec through the table (41_grid_codec.md R131 to R134): a wire bit as a bit of its byte, full and empty bytes,
and UNPACK and PACK as transactions. -/

namespace Sys2Proof

/-- Wire bit `8k + i` is in byte `k`, at the place `BIT_ORDER` gives `i` (R131). -/
theorem wireBit_byte (o : BitOrder) (w : Wire) {k i u : Nat} (hu : 8 * k + i = u) (hi : i < 8) :
    wireBit o w u = (w.toList.getD k 0).getLsbD (o.bitPos i) := by
  rw [wireBit, show u / 8 = k by omega, show u % 8 = i by omega]

/-- The wire bits of an empty byte are clear, in either bit order. -/
theorem wireBit_of_empty (o : BitOrder) {w : Wire} {u : Nat} (h : w.toList.getD (u / 8) 0 = 0x00) :
    wireBit o w u = false := by
  rw [wireBit, h]
  exact BitVec.getLsbD_zero

/-- The wire bits of a full byte are set, in either bit order. -/
theorem wireBit_of_full (o : BitOrder) {w : Wire} {u : Nat} (h : w.toList.getD (u / 8) 0 = 0xFF) :
    wireBit o w u = true := by
  rw [wireBit, h, show (0xFF : Byte) = BitVec.allOnes 8 from rfl, BitVec.getLsbD_allOnes, decide_eq_true_eq]
  exact o.bitPos_lt (Nat.mod_lt u (by decide))

/-- Where all other bytes are empty, the wire bits of a full byte `k` are those of the wire groups `2k` and `2k + 1`
(R130, R133). -/
theorem wireBit_of_one_full_byte (o : BitOrder) {w : Wire} {k q b : Nat}
    (hw : ∀ i < 8, w.toList.getD i 0 = if i = k then 0xFF else 0x00) (hq : q < 16) (hb : b < 4) :
    wireBit o w (4 * q + b) = true ↔ q = 2 * k ∨ q = 2 * k + 1 := by
  have hbyte := hw ((4 * q + b) / 8) (by omega)
  by_cases hk : (4 * q + b) / 8 = k
  · rw [if_pos hk] at hbyte
    exact iff_of_true (wireBit_of_full o hbyte) (by omega)
  · rw [if_neg hk] at hbyte
    exact iff_of_false (by simp [wireBit_of_empty o hbyte]) (by omega)

/-- UNPACK of empty bytes is the empty grid. -/
theorem unpackWire_empty (c : Config) : unpackWire c (Vector.replicate 8 0x00) = 0 := by
  refine BitVec.eq_of_getLsbD_eq fun i hi => ?_
  rw [unpackWire, tabulate_getLsbD _ hi]
  refine (wireBit_of_empty _ ?_).trans BitVec.getLsbD_zero.symm
  rw [Vector.toList_replicate, List.getD_eq_getElem?_getD, List.getElem?_getD_replicate_default_eq]

section
variable {c : Config} (hp : c.permBijective = true)
include hp

/-- UNPACK of full bytes is the full grid: the table names no wire bit beyond them. -/
theorem unpackWire_full : unpackWire c (Vector.replicate 8 0xFF) = 0xFFFFFFFFFFFFFFFF := by
  refine BitVec.eq_of_getLsbD_eq fun i hi => ?_
  have hq : c.permAt (i / 4) < 16 := Config.permAt_lt hp (by omega)
  have hbyte : (4 * c.permAt (i / 4) + i % 4) / 8 < 8 := by omega
  have hfull : (0xFFFFFFFFFFFFFFFF : Grid).getLsbD i = true := by
    rw [show (0xFFFFFFFFFFFFFFFF : Grid) = BitVec.allOnes 64 from rfl, BitVec.getLsbD_allOnes, decide_eq_true hi]
  rw [unpackWire, tabulate_getLsbD _ hi, hfull]
  refine wireBit_of_full _ ?_
  rw [Vector.toList_replicate, List.getD_replicate _ hbyte]

/-- The wire bits of PACK's bytes are the cells that the table sends there (R134). -/
theorem wireBit_packWire_permAt (g : Grid) {j b : Nat} (hj : j < 16) (hb : b < 4) :
    wireBit c.bitOrder (packWire c g) (4 * c.permAt j + b) = g.getLsbD (4 * j + b) := by
  have hq := Config.permAt_lt hp hj
  rw [wireBit_packWire c g (by omega), packBit_permAt hp g hj hb]

/-- Every wire bit is one that the table names (R132). -/
theorem exists_eq_permAt {u : Nat} (hu : u < 64) : ∃ j < 16, ∃ b < 4, u = 4 * c.permAt j + b := by
  obtain ⟨j, hj, hq⟩ := Config.exists_permAt hp (q := u / 4) (by omega)
  exact ⟨j, hj, u % 4, by omega, by omega⟩

/-- Under a valid table PACK undoes UNPACK (R135). -/
theorem packWire_unpackWire (w : Wire) : packWire c (unpackWire c w) = w := by
  refine wire_ext c.bitOrder fun u hu => ?_
  obtain ⟨j, hj, b, hb, rfl⟩ := exists_eq_permAt hp hu
  rw [wireBit_packWire_permAt hp _ hj hb, unpackWire_bit c w hj hb]

/-- PACK of the empty grid is empty bytes. -/
theorem packWire_empty : packWire c 0 = Vector.replicate 8 0x00 := by
  rw [← unpackWire_empty c, packWire_unpackWire hp]

/-- PACK of the full grid is full bytes. -/
theorem packWire_full : packWire c 0xFFFFFFFFFFFFFFFF = Vector.replicate 8 0xFF := by
  rw [← unpackWire_full hp, packWire_unpackWire hp]

end

namespace Machine

theorem decodeCommand_unpack (r : Request) (h : r.cmd = 0x2) : decodeCommand r = .unpack r.wire := by
  simp [decodeCommand, h]

theorem decodeCommand_pack (r : Request) (h : r.cmd = 0x3) : decodeCommand r = .pack r.grid := by
  simp [decodeCommand, h]

/-- UNPACK in a state that can run returns the grid and writes no other state (R133). -/
theorem exec_unpack_live {s : State} (hs : s.Live) (w : Wire) :
    exec (.unpack w) s = .next { s with result := .grid (unpackWire s.cfg w) } := by
  rw [exec_unpack, transact_live hs.config hs.noFault]
  rfl

/-- Settles O41: a cell is a wire bit by the table (`unpackWire_bit`), and a wire bit is a bit of its byte by the bit
order (`wireBit_byte`). -/
theorem unpackReadsTheWireThroughTheTable : Obligations.UnpackReadsTheWireThroughTheTable := by
  refine ⟨decodeCommand_unpack, fun s w hs => ?_⟩
  obtain ⟨hp, -⟩ := s.cfg.valid_iff.1 hs.config
  refine ⟨unpackWire s.cfg w, exec_unpack_live hs w, fun j b hj hb k i hu hi => ?_, ?_, ?_,
    fun k _ hw j b hj hb => ?_⟩
  · rw [unpackWire_bit _ _ hj hb, wireBit_byte _ _ hu hi]
    cases s.cfg.bitOrder with
    | lsbFirst | msbFirst => rfl
  · rintro rfl
    exact unpackWire_empty s.cfg
  · rintro rfl
    exact unpackWire_full hp
  · rw [unpackWire_bit _ _ hj hb]
    exact wireBit_of_one_full_byte _ hw (Config.permAt_lt hp hj) hb

/-- Settles O42: a wire bit of PACK's bytes is a cell by the table (`wireBit_packWire_permAt`), and a bit of its byte by
the bit order (`wireBit_byte`). -/
theorem packWritesTheWireThroughTheTable : Obligations.PackWritesTheWireThroughTheTable := by
  refine ⟨decodeCommand_pack, fun s g hs => ?_⟩
  obtain ⟨hp, -⟩ := s.cfg.valid_iff.1 hs.config
  refine ⟨packWire s.cfg g, exec_pack_live hs g, fun j b hj hb k i hu hi => ?_, ?_, ?_⟩
  · rw [← wireBit_packWire_permAt hp g hj hb, wireBit_byte _ _ hu hi]
    cases s.cfg.bitOrder with
    | lsbFirst | msbFirst => rfl
  · rintro rfl
    exact packWire_empty hp
  · rintro rfl
    exact packWire_full hp

end Machine
end Sys2Proof
end

section
/-! The transforms (42_grid_transforms.md R150 to R155, R160): as transactions, and their laws by the cells they move. -/

namespace Sys2Proof

theorem cell_full {x y : Nat} (hx : x < 8) (hy : y < 8) : cell 0xFFFFFFFFFFFFFFFF x y = true := by
  rw [cell, show (0xFFFFFFFFFFFFFFFF : Grid) = BitVec.allOnes 64 from rfl, BitVec.getLsbD_allOnes, decide_eq_true_eq]
  omega

theorem cell_xor (g h : Grid) (x y : Nat) : cell (g ^^^ h) x y = (cell g x y ^^ cell h x y) := BitVec.getLsbD_xor

/-- A row is the byte whose bits are the row's cells. -/
theorem row_eq {g : Grid} {y : Nat} {b : Byte} (h : ∀ x < 8, cell g x y = b.getLsbD x) : row g y = b :=
  BitVec.eq_of_getLsbD_eq fun x hx => (row_getLsbD g y hx).trans (h x hx)

theorem row_reverse_getLsbD (g : Grid) (y : Nat) {x : Nat} (hx : x < 8) :
    (row g y).reverse.getLsbD x = cell g (7 - x) y := by
  rw [BitVec.getLsbD_reverse, BitVec.getMsbD_eq_getLsbD, decide_eq_true hx, Bool.true_and, row_getLsbD g y (by omega)]

namespace Machine

/-- A transaction that only responds, in a state that can run (R150). -/
theorem transact_respond_live {s : State} (hs : s.Live) (r : Result) :
    transact s (respond r) = .next { s with result := r } := by
  rw [transact_live hs.config hs.noFault]
  rfl

theorem decodeCommand_invert (r : Request) (h : r.cmd = 0x4) : decodeCommand r = .invert r.grid := by
  simp [decodeCommand, h]

theorem decodeCommand_flipv (r : Request) (h : r.cmd = 0x7) : decodeCommand r = .flipv r.grid := by
  simp [decodeCommand, h]

theorem decodeCommand_fliph (r : Request) (h : r.cmd = 0x8) : decodeCommand r = .fliph r.grid := by
  simp [decodeCommand, h]

/-- The body of a transform is a response with a grid that no state enters (R150). -/
theorem exec_transform {x : Grid → Instr}
    (hx : x ∈ [Instr.invert, .rotl, .rotr, .flipv, .fliph, .shl, .shr, .shu, .shd]) (g : Grid) :
    ∃ g', ∀ s, exec (x g) s = transact s (respond (.grid g')) := by
  simp only [List.mem_cons, List.not_mem_nil, or_false] at hx
  rcases hx with rfl | rfl | rfl | rfl | rfl | rfl | rfl | rfl | rfl
  · exact ⟨_, exec_invert g⟩
  · exact ⟨_, exec_rotl g⟩
  · exact ⟨_, exec_rotr g⟩
  · exact ⟨_, exec_flipv g⟩
  · exact ⟨_, exec_fliph g⟩
  · exact ⟨_, exec_shl g⟩
  · exact ⟨_, exec_shr g⟩
  · exact ⟨_, exec_shu g⟩
  · exact ⟨_, exec_shd g⟩

/-- Settles O47: the response is the same for every state (`exec_transform`), and all that a response writes is the
result (`transact_respond_live`). -/
theorem transformsReadOnlyTheirGrid : Obligations.TransformsReadOnlyTheirGrid := by
  intro x hx g
  obtain ⟨g', hbody⟩ := exec_transform hx g
  exact ⟨g', fun s hs => (hbody s).trans (transact_respond_live hs _)⟩

/-- The closed form of INVERT: complementing a cell is flipping it (R151). -/
theorem invertGrid_eq_xor (g : Grid) : invertGrid g = g ^^^ 0xFFFFFFFFFFFFFFFF :=
  grid_ext fun x y hx hy => by rw [cell_invert g hx hy, cell_xor, cell_full hx hy, Bool.xor_true]

/-- Settles O48: the cells are `cell_invert`, the closed form is `invertGrid_eq_xor`. -/
theorem invertComplementsEveryCell : Obligations.InvertComplementsEveryCell :=
  ⟨decodeCommand_invert, fun s g hs => ⟨(exec_invert g s).trans (transact_respond_live hs _),
    fun _ _ => cell_invert g, invertGrid_eq_xor g⟩⟩

/-- The closed form of FLIPV (R154). -/
theorem row_flipv (g : Grid) {y : Nat} (hy : y < 8) : row (flipvGrid g) y = row g (7 - y) :=
  row_eq fun x hx => by rw [cell_flipv g hx hy, row_getLsbD g _ hx]

/-- The closed form of FLIPH (R155). -/
theorem row_fliph (g : Grid) {y : Nat} (hy : y < 8) : row (fliphGrid g) y = (row g y).reverse :=
  row_eq fun x hx => by rw [cell_fliph g hx hy, row_reverse_getLsbD g y hx]

/-- Settles O50: the cells are `cell_flipv` and `cell_fliph`, the rows `row_flipv` and `row_fliph`. -/
theorem flipsReverseRowsAndColumns : Obligations.FlipsReverseRowsAndColumns :=
  ⟨fun r => ⟨decodeCommand_flipv r, decodeCommand_fliph r⟩, fun s g hs =>
    ⟨(exec_flipv g s).trans (transact_respond_live hs _), (exec_fliph g s).trans (transact_respond_live hs _),
      fun _ _ hx hy => ⟨cell_flipv g hx hy, cell_fliph g hx hy⟩, fun _ hy => ⟨row_flipv g hy, row_fliph g hy⟩⟩⟩

theorem invertGrid_invertGrid (g : Grid) : invertGrid (invertGrid g) = g :=
  grid_ext fun x y hx hy => by rw [cell_invert _ hx hy, cell_invert _ hx hy, Bool.not_not]

theorem flipvGrid_flipvGrid (g : Grid) : flipvGrid (flipvGrid g) = g :=
  grid_ext fun x y hx hy => by
    rw [cell_flipv _ hx hy, cell_flipv _ hx (by omega), show 7 - (7 - y) = y by omega]

theorem fliphGrid_fliphGrid (g : Grid) : fliphGrid (fliphGrid g) = g :=
  grid_ext fun x y hx hy => by
    rw [cell_fliph _ hx hy, cell_fliph _ (by omega) hy, show 7 - (7 - x) = x by omega]

theorem shrGrid_shlGrid (g : Grid) : shrGrid (shlGrid g) = g :=
  grid_ext fun x y hx hy => by
    rw [cell_shr _ hx hy, cell_shl _ (by omega) hy, show ((x + 7) % 8 + 1) % 8 = x by omega]

/-- Two quarter turns are a half turn: both coordinates are reversed. -/
theorem cell_rotl_rotl (g : Grid) {x y : Nat} (hx : x < 8) (hy : y < 8) :
    cell (rotlGrid (rotlGrid g)) x y = cell g (7 - x) (7 - y) := by
  rw [cell_rotl _ hx hy, cell_rotl _ (by omega) hx]

/-- Four quarter turns are two half turns. -/
theorem rotlGrid_four_times (g : Grid) : rotlGrid (rotlGrid (rotlGrid (rotlGrid g))) = g :=
  grid_ext fun x y hx hy => by
    rw [cell_rotl_rotl _ hx hy, cell_rotl_rotl _ (by omega) (by omega), show 7 - (7 - x) = x by omega,
      show 7 - (7 - y) = y by omega]

/-- Settles O52: each law is read off the cells; ROTR is three ROTLs by definition (R153). -/
theorem transformLawsOfTheSource : Obligations.TransformLawsOfTheSource := fun g =>
  ⟨invertGrid_invertGrid g, rotlGrid_four_times g, flipvGrid_flipvGrid g, fliphGrid_fliphGrid g, shrGrid_shlGrid g, rfl⟩

end Machine
end Sys2Proof
end

section
/-! The invariant (10_state.md R31 iii, 60_exceptions.md R183): reset meets it, and every instruction and every step
keeps it. -/

namespace Sys2Proof.Machine

/-- The block right after reset holds no bytes, so it is within any `BUF_CAP` (R200). -/
theorem State.resetWith_inv {c : Config} (hc : c.valid = true) : (State.resetWith c).Inv :=
  ⟨hc, fun _ _ => Nat.zero_le _⟩

/-- The controller's queue is not in the invariant. -/
theorem State.Inv.setPending {s : State} (hs : s.Inv) (es : List Event) : (s.setPending es).Inv :=
  ⟨hs.config, hs.fits⟩

theorem exec_keeps_inv {i : Instr} {s t : State} (hs : s.Inv) (h : exec i s = .next t) : t.Inv := by
  obtain ⟨hcfg, -⟩ := exec_keeps_cfg h
  exact ⟨hcfg ▸ hs.config, exec_keeps_bufFits h hs.fits⟩

theorem step_keeps_inv {s t : State} (hs : s.Inv) (h : step s = .next t) : t.Inv := by
  rcases step_cases h with ⟨-, rfl⟩ | ⟨es, -, hc, rfl⟩ | ⟨i, e, es, -, -, h⟩
  · exact hs
  · exact (State.resetWith_inv hc).setPending _
  · exact exec_keeps_inv (hs.setPending es) h

/-- Settles O13: a step is idle, a reset or an instruction (`step_cases`), and each keeps the invariant. -/
theorem everyStepKeepsTheInvariant : Obligations.EveryStepKeepsTheInvariant :=
  ⟨fun _ _ => step_keeps_inv, fun _ _ _ => exec_keeps_inv⟩

/-- Settles O12: `State.reset` is the reset state of `REFCFG`, which is valid. -/
theorem resetMeetsTheInvariant : Obligations.ResetMeetsTheInvariant :=
  ⟨fun _ => State.resetWith_inv, State.resetWith_inv (by decide)⟩

end Sys2Proof.Machine
end

section
/-! Encoding and decoding of the three code spaces (30_encoding.md R60 to R77): each undoes the other. -/

namespace Sys2Proof

/-- A well-formed frame decodes from its bytes, and the bytes after it are left (R64 to R70, R102). -/
theorem decode_frameBytes {c : Config} (hc : c.valid = true) {f : Frame} (hw : wellFormed c f.toInstr = true)
    (rest : List Byte) : decode c (.inbound (frameBytes c f ++ rest)) = .ok (f.toInstr, rest) := by
  rw [decode_inbound_frame (decodeHead_frameBytes hc hw rest), ← frameBytes_length c f, List.drop_left]

/-- An unrecognised byte decodes to SKIP of it, and the bytes after it are left (R74, R104). -/
theorem decode_unrecognised {c : Config} {b : Byte} (hb : c.kindOf b = none) (rest : List Byte) :
    decode c (.inbound (b :: rest)) = .ok (.skip b, rest) := by
  rw [decode, decodeInbound, decodeHead_of_none hb]
  rfl

/-- The first eight bytes of a sequence as a grid payload (R65). -/
def firstEight (bs : List Byte) : Wire := Vector.ofFn fun i : Fin 8 => byteAt bs i.val

theorem firstEight_toList {bs : List Byte} (h : 8 ≤ bs.length) : (firstEight bs).toList = bs.take 8 := by
  refine List.ext_getElem (by simp [h]) fun i hi _ => ?_
  rw [Vector.length_toList] at hi
  have hlt : i < bs.length := by omega
  simp [firstEight, byteAt, List.getD_eq_getElem?_getD, hlt]

theorem firstEight_append (w : Wire) (rest : List Byte) : firstEight (w.toList ++ rest) = w := by
  rw [← Vector.toList_inj, firstEight_toList (by simp), List.take_left' (by simp)]

/-- 0x01 and at least eight bytes are a grid update of the grid that UNPACK makes of them (R71). -/
theorem decodeOutbound_gridUpdate (c : Config) {rest : List Byte} (h : 8 ≤ rest.length) :
    decodeOutbound c (0x01 :: rest) = .ok (.gridUpdate (unpackWire c (firstEight rest)), rest.drop 8) :=
  if_neg (Nat.not_lt.2 h)

theorem decode_outboundBytes {c : Config} (hc : c.valid = true) (o : Outbound) (rest : List Byte) :
    decode c (.outbound (outboundBytes c o ++ rest)) = .ok (o.toInstr, rest) := by
  obtain ⟨hp, -⟩ := c.valid_iff.1 hc
  cases o with
  | gridUpdate g =>
    rw [decode, outboundBytes, List.cons_append, decodeOutbound_gridUpdate c (by simp), firstEight_append,
      unpackWire_packWire hp, List.drop_left' (by simp)]
    rfl
  | syncExit | syncEnter => rfl

/-- The code space and the encoding of every instruction: a frame, a skipped byte, an outbound frame, or the command
that selects it. -/
theorem encode_cases (c : Config) (i : Instr) :
    (∃ f, i = Frame.toInstr f ∧ encode c i = .inbound (frameBytes c f)) ∨
      (∃ b, i = .skip b ∧ encode c i = .inbound [b]) ∨
      (∃ o, i = Outbound.toInstr o ∧ encode c i = .outbound (outboundBytes c o)) ∨
      ∃ r, decodeCommand r = i ∧ encode c i = .command r := by
  cases i
  case debug m => exact .inl ⟨.debug m, rfl, rfl⟩
  case syncgrid w => exact .inl ⟨.syncgrid w, rfl, rfl⟩
  case buttondown x => exact .inl ⟨.buttondown x, rfl, rfl⟩
  case buttonup x => exact .inl ⟨.buttonup x, rfl, rfl⟩
  case padDown x => exact .inl ⟨.padDown x, rfl, rfl⟩
  case padUp x => exact .inl ⟨.padUp x, rfl, rfl⟩
  case dialchange x y => exact .inl ⟨.dialchange x y, rfl, rfl⟩
  case skip b => exact .inr (.inl ⟨b, rfl, rfl⟩)
  case gridUpdate g => exact .inr (.inr (.inl ⟨.gridUpdate g, rfl, rfl⟩))
  case syncExit => exact .inr (.inr (.inl ⟨.syncExit, rfl, rfl⟩))
  case syncEnter => exact .inr (.inr (.inl ⟨.syncEnter, rfl, rfl⟩))
  all_goals exact .inr (.inr (.inr ⟨_, rfl, rfl⟩))

theorem wellFormed_skip_iff {c : Config} {b : Byte} : wellFormed c (.skip b) = true ↔ c.kindOf b = none :=
  Option.isNone_iff_eq_none

/-- An inbound encoding is read back, and the bytes after it are left. -/
theorem decode_encode_inbound {c : Config} {i : Instr} (hc : c.valid = true) (hw : wellFormed c i = true)
    {bs : List Byte} (he : encode c i = .inbound bs) (rest : List Byte) :
    decode c (.inbound (bs ++ rest)) = .ok (i, rest) := by
  rcases encode_cases c i with ⟨f, rfl, henc⟩ | ⟨b, rfl, henc⟩ | ⟨o, rfl, henc⟩ | ⟨r, rfl, henc⟩ <;>
    rw [henc] at he <;> cases he
  · exact decode_frameBytes hc hw rest
  · exact decode_unrecognised (wellFormed_skip_iff.1 hw) rest

/-- Every encoding is read back whole. -/
theorem decode_encode {c : Config} {i : Instr} (hc : c.valid = true) (hw : wellFormed c i = true) :
    decode c (encode c i) = .ok (i, []) := by
  rcases encode_cases c i with ⟨f, rfl, henc⟩ | ⟨b, rfl, henc⟩ | ⟨o, rfl, henc⟩ | ⟨r, rfl, henc⟩ <;> rw [henc]
  · simpa using decode_frameBytes hc hw []
  · exact decode_unrecognised (wellFormed_skip_iff.1 hw) []
  · simpa using decode_outboundBytes hc o []
  · rfl

/-- Settles O38: one round trip for each code space (`encode_cases`). -/
theorem decodeOfEncodeIsTheInstruction : Obligations.DecodeOfEncodeIsTheInstruction := fun _ _ hc hw =>
  ⟨decode_encode hc hw, fun _ rest he => decode_encode_inbound hc hw he rest⟩

/-- What the decoder reads from inbound bytes is what stands at their head (R102). -/
theorem decode_inbound_eq_ok {c : Config} {bs rest : List Byte} {i : Instr}
    (h : decode c (.inbound bs) = .ok (i, rest)) :
    (∃ b, decodeHead c bs = .skipped b ∧ i = .skip b ∧ bs = b :: rest) ∨
      ∃ f, decodeHead c bs = .frame f ∧ i = f.toInstr ∧ bs = frameBytes c f ++ rest := by
  rw [decode, decodeInbound] at h
  cases hd : decodeHead c bs with
  | incomplete => rw [hd] at h; cases h
  | skipped b =>
    obtain ⟨rest', rfl, -⟩ := decodeHead_eq_skipped hd
    rw [hd] at h
    cases h
    exact .inl ⟨b, rfl, rfl, rfl⟩
  | frame f =>
    obtain ⟨-, hbytes⟩ := frameBytes_of_decodeHead hd
    rw [hd] at h
    cases h
    exact .inr ⟨f, rfl, rfl, hbytes⟩

/-- What the decoder reads from outbound bytes is an outbound frame, whose bytes they begin with (R71 to R73). -/
theorem decode_outbound_eq_ok {c : Config} (hp : c.permBijective = true) {bs rest : List Byte} {i : Instr}
    (h : decode c (.outbound bs) = .ok (i, rest)) :
    ∃ o, i = Outbound.toInstr o ∧ bs = outboundBytes c o ++ rest := by
  cases bs with
  | nil => cases h
  | cons op body =>
    simp only [decode, decodeOutbound] at h
    split_ifs at h with h1 hshort h5 h6
    · cases h
      subst h1
      refine ⟨.gridUpdate (unpackWire c (firstEight body)), rfl, ?_⟩
      change _ = 0x01 :: (packWire c (unpackWire c (firstEight body))).toList ++ body.drop 8
      rw [packWire_unpackWire hp, firstEight_toList (Nat.not_lt.1 hshort), List.cons_append, List.take_append_drop]
    · cases h
      exact ⟨.syncExit, rfl, h5 ▸ rfl⟩
    · cases h
      exact ⟨.syncEnter, rfl, h6 ▸ rfl⟩

theorem encode_toInstr (c : Config) (f : Frame) : encode c f.toInstr = .inbound (frameBytes c f) := by
  cases f <;> rfl

theorem encode_outbound (c : Config) (o : Outbound) :
    wellFormed c o.toInstr = true ∧ encode c o.toInstr = .outbound (outboundBytes c o) := by
  cases o <;> exact ⟨rfl, rfl⟩

/-- Settles O39: inbound bytes begin with what stands at their head, outbound ones with a whole outbound frame. -/
theorem encodeOfDecodeIsTheBytes : Obligations.EncodeOfDecodeIsTheBytes := by
  intro c i bs rest hc
  obtain ⟨hp, -⟩ := c.valid_iff.1 hc
  constructor
  · intro h
    rcases decode_inbound_eq_ok h with ⟨b, hd, rfl, hbytes⟩ | ⟨f, hd, rfl, hbytes⟩
    · obtain ⟨-, hbuf, hb⟩ := decodeHead_eq_skipped hd
      exact ⟨wellFormed_skip_iff.2 hb, [b], rfl, hbytes⟩
    · exact ⟨(frameBytes_of_decodeHead hd).1, _, encode_toInstr c f, hbytes⟩
  · intro h
    obtain ⟨o, rfl, hbytes⟩ := decode_outbound_eq_ok hp h
    obtain ⟨hw, henc⟩ := encode_outbound c o
    exact ⟨hw, _, henc, hbytes⟩

/-- Settles O36: each format is the bytes of its frame (`decode_frameBytes`). -/
theorem everyInboundFormatDecodes : Obligations.EveryInboundFormatDecodes := by
  intro c hc rest
  have hdec := fun (f : Frame) (hw : wellFormed c f.toInstr = true) => decode_frameBytes hc hw rest
  refine ⟨fun len msg hlen => ?_, fun w0 w1 w2 w3 w4 w5 w6 w7 => ?_, fun x => ?_, fun dial value => ?_⟩
  · have := len.isLt
    have hmsg := hdec (.debug msg) (by simp only [Frame.toInstr, wellFormed, decide_eq_true_eq]; omega)
    rwa [frameBytes, hlen, BitVec.ofNat_toNat, BitVec.setWidth_eq] at hmsg
  · exact hdec (.syncgrid #v[w0, w1, w2, w3, w4, w5, w6, w7]) rfl
  · exact ⟨hdec (.buttondown x) rfl, hdec (.buttonup x) rfl, hdec (.padDown x) rfl, hdec (.padUp x) rfl⟩
  · exact hdec (.dialchange dial value) rfl

/-- Settles O40: the decoder run on each word. -/
theorem writtenWordsDecode : Obligations.WrittenWordsDecode := by
  refine ⟨rfl, rfl, rfl, rfl, rfl, rfl, rfl, rfl, rfl, ?_⟩
  decide +kernel

end Sys2Proof
end

section
/-! APPEND (40_frame_decoder.md R100, 60_exceptions.md R182): one rule where the bytes fit, one where they
overflow. -/

namespace Sys2Proof.Machine

theorem decodeCommand_append (r : Request) (h : r.cmd = 0x0) : decodeCommand r = .append r.bytes := by
  simp [decodeCommand, h]

theorem overflows_eq_false_iff (s : State) (bs : List Byte) :
    s.overflows bs = false ↔ ∀ cap, s.cfg.bufCap = some cap → s.buf.length + bs.length ≤ cap := by
  rw [← Bool.not_eq_true, overflows_eq_true_iff]
  simp

/-- Whether an APPEND overflows is told by the configuration and the two lengths; fewer bytes overflow no sooner. -/
theorem overflows_mono {s s' : State} {bs bs' : List Byte} (hcfg : s'.cfg = s.cfg)
    (hlen : s'.buf.length + bs'.length ≤ s.buf.length + bs.length) (ho : s.overflows bs = false) :
    s'.overflows bs' = false := by
  rw [overflows_eq_false_iff] at ho ⊢
  exact fun cap hcap => hlen.trans (ho cap (hcfg ▸ hcap))

variable {s : State} (hs : s.Live)
include hs

/-- An APPEND that fits adds its bytes at the tail (R100). -/
theorem exec_append_fits {bs : List Byte} (ho : s.overflows bs = false) :
    exec (.append bs) s = .next { s with buf := s.buf ++ bs, result := .none } := by
  rw [exec_append, transact_live hs.config hs.noFault, ho]
  rfl

/-- An APPEND that overflows records the two lengths (R182). -/
theorem exec_append_overflows {bs : List Byte} (ho : s.overflows bs = true) :
    exec (.append bs) s =
      .next { s with fault := some (.bufferOverflow s.buf.length bs.length), result := .none } := by
  rw [exec_append, transact_live hs.config hs.noFault, ho]
  rfl

omit hs

/-- Settles O15: the overflow test is the comparison with a bounded `BUF_CAP`. -/
theorem appendAddsAtTheTailOrOverflows : Obligations.AppendAddsAtTheTailOrOverflows := by
  refine ⟨decodeCommand_append, fun s bs hs hfit => ?_, fun s bs cap hs hcap hlt => ?_, fun s hs hfits => ?_,
    fun _ _ => rfl⟩
  · exact exec_append_fits hs ((overflows_eq_false_iff s bs).2 hfit)
  · exact exec_append_overflows hs ((overflows_eq_true_iff s bs).2 ⟨cap, hcap, hlt⟩)
  · rw [exec_append_fits hs ((overflows_eq_false_iff s []).2 hfits), List.append_nil]

/-- Settles O16: where both operands fit together, each fits after the other. -/
theorem appendsFollowEachOther : Obligations.AppendsFollowEachOther := by
  intro s as bs hs ho
  have has : s.overflows as = false := overflows_mono rfl (by simp) ho
  have hbs : State.overflows { s with buf := s.buf ++ as, result := .none } bs = false :=
    overflows_mono (s := s) rfl (by simp [Nat.add_assoc]) ho
  have hsecond := exec_append_fits (s := { s with buf := s.buf ++ as, result := .none }) ⟨hs.config, hs.noFault⟩ hbs
  refine ⟨_, exec_append_fits hs has, ?_, _, hsecond, rfl⟩
  rw [hsecond, exec_append_fits hs ho, List.append_assoc]

end Sys2Proof.Machine
end

section
/-! What a TAKE consumes (20_memory.md R48 to R51, 40_frame_decoder.md R102): the bytes of its token, and only those
bytes decide what it does. -/

namespace Sys2Proof.Machine

theorem tokenBytes_gateToken (c : Config) (ready : Bool) (f : Frame) :
    tokenBytes c (gateToken ready f) = frameBytes c f := by
  cases f <;> cases ready <;> rfl

theorem frameBytes_ne_nil (c : Config) (f : Frame) : frameBytes c f ≠ [] :=
  List.ne_nil_of_length_pos (frameBytes_length c f ▸ f.length_pos)

/-- Everything a TAKE in a state that can run does, by the bytes at the head of `buf` (R102). -/
theorem exec_take_live_cases {s : State} (hs : s.Live) :
    (decodeHead s.cfg s.buf = .incomplete ∧ exec .take s = .next { s with result := .token .incomplete }) ∨
      (∃ b rest, s.buf = b :: rest ∧ s.cfg.kindOf b = none ∧
        exec .take s = .next { s with buf := rest, result := .token (.skipped b) }) ∨
      ∃ f rest, s.buf = frameBytes s.cfg f ++ rest ∧ wellFormed s.cfg f.toInstr = true ∧
        exec .take s = .next { s with
          buf := rest, ready := readyAfter s.cfg.marker s.ready f, result := .token (gateToken s.ready f) } := by
  cases hd : decodeHead s.cfg s.buf with
  | incomplete => exact .inl ⟨rfl, exec_take_of_incomplete hs hd⟩
  | skipped b =>
    obtain ⟨rest, hbuf, hb⟩ := decodeHead_eq_skipped hd
    exact .inr (.inl ⟨b, rest, hbuf, hb, (exec_take_of_skipped hs hd).trans (exec_skip_live hs hbuf)⟩)
  | frame f =>
    obtain ⟨hw, hbuf⟩ := frameBytes_of_decodeHead hd
    exact .inr (.inr ⟨f, _, hbuf, hw, exec_frame_at_head hs hw hbuf List.mem_cons_self⟩)

/-- A TAKE writes `buf`, `ready` and its token; it removes the bytes of the token, none for INCOMPLETE only. -/
theorem exec_take_token {s : State} (hs : s.Live) : ∃ tok t, exec .take s = .next t ∧
    t = { s with buf := t.buf, ready := t.ready, result := .token tok } ∧
    s.buf = tokenBytes s.cfg tok ++ t.buf ∧ (tok = .incomplete ∨ tokenBytes s.cfg tok ≠ []) := by
  rcases exec_take_live_cases hs with ⟨-, ht⟩ | ⟨b, rest, hbuf, -, ht⟩ | ⟨f, rest, hbuf, -, ht⟩
  · exact ⟨_, _, ht, rfl, rfl, .inl rfl⟩
  · exact ⟨_, _, ht, rfl, hbuf, .inr (List.cons_ne_nil b [])⟩
  · have hbytes := tokenBytes_gateToken s.cfg s.ready f
    exact ⟨_, _, ht, rfl, by rw [hbytes, hbuf], .inr (hbytes ▸ frameBytes_ne_nil s.cfg f)⟩

/-- Settles O27: a token's bytes are what a TAKE removes (`exec_take_token`), so only INCOMPLETE removes none. -/
theorem takeRemovesExactlyItsTokensBytes : Obligations.TakeRemovesExactlyItsTokensBytes := by
  intro s hs
  obtain ⟨tok, t, ht, hframe, hbuf, htok⟩ := exec_take_token hs
  refine ⟨tok, t, ht, hframe, hbuf, fun hne => ?_⟩
  have hpos := List.length_pos_of_ne_nil (htok.resolve_left hne)
  rw [hbuf, List.length_append]
  omega

/-- A TAKE that answers INCOMPLETE found an incomplete head and wrote no state (R114). -/
theorem take_incomplete_eq {s t : State} (hs : s.Live) (ht : exec .take s = .next t)
    (hres : t.result = .token .incomplete) :
    decodeHead s.cfg s.buf = .incomplete ∧ t = { s with result := .token .incomplete } := by
  exact ⟨(exec_take_incomplete_iff hs).1 ⟨t, ht, hres⟩, (incompleteInExactlyThreeCases s hs).2 t ht hres⟩

/-- An instruction that answers a next state ran in a state that can run (R183, R185). -/
theorem live_of_exec {i : Instr} {s t : State} (h : exec i s = .next t) : s.Live := by
  obtain ⟨hc, hf, -⟩ := exec_cases h
  exact ⟨hc, hf⟩

/-- Settles O26: the head that was incomplete is still there. -/
theorem incompleteTakeIsIdempotent : Obligations.IncompleteTakeIsIdempotent := by
  intro s t ht hres
  have hs := live_of_exec ht
  obtain ⟨hd, rfl⟩ := take_incomplete_eq hs ht hres
  exact exec_take_of_incomplete (s := { s with result := .token .incomplete }) ⟨hs.config, hs.noFault⟩ hd

/-- Bytes at the tail change neither the token nor what a TAKE other than INCOMPLETE does: it is decided by the bytes it
consumes (R118). -/
theorem exec_take_append {s t : State} (ht : exec .take s = .next t) (hne : t.result ≠ .token .incomplete)
    (more : List Byte) : exec .take { s with buf := s.buf ++ more } = .next { t with buf := t.buf ++ more } := by
  have hs := live_of_exec ht
  have hs' : State.Live { s with buf := s.buf ++ more } := ⟨hs.config, hs.noFault⟩
  rcases exec_take_live_cases hs with ⟨-, h⟩ | ⟨b, rest, hbuf, hb, h⟩ | ⟨f, rest, hbuf, hw, h⟩ <;> cases h.symm.trans ht
  · exact absurd rfl hne
  · have hbuf' : s.buf ++ more = b :: (rest ++ more) := by rw [hbuf, List.cons_append]
    exact (exec_take_of_skipped hs' (hbuf' ▸ decodeHead_of_none hb)).trans (exec_skip_live hs' hbuf')
  · have hbuf' : s.buf ++ more = frameBytes s.cfg f ++ (rest ++ more) := by rw [hbuf, List.append_assoc]
    exact exec_frame_at_head hs' hw hbuf' List.mem_cons_self

/-- Settles O28: `exec_take_append`. -/
theorem bytesAtTheTailDoNotChangeATake : Obligations.BytesAtTheTailDoNotChangeATake := fun _ _ more ht hne =>
  exec_take_append ht hne more

end Sys2Proof.Machine
end

section
/-! The handshake gate (40_frame_decoder.md R112, R113): which instructions change `ready`, and the default marker. -/

namespace Sys2Proof

/-- The gate changes `ready` for a DEBUG frame with the marker only, and only from false (R113). -/
theorem readyAfter_ne {m : ReadyMarker} {ready : Bool} {f : Frame} (h : readyAfter m ready f ≠ ready) :
    ready = false ∧ ∃ msg, f = .debug msg ∧ m.accepts msg = true := by
  cases f with
  | debug msg =>
    rw [readyAfter_debug] at h
    cases ready with
    | false => exact ⟨rfl, msg, rfl, by simpa using h⟩
    | true => exact absurd rfl h
  | _ => exact absurd rfl h

theorem gateToken_of_ready (f : Frame) : gateToken true f = .frame f := by cases f <;> rfl

/-- The default marker is a last byte 0x0A (R113). -/
theorem newlineTerminated_accepts_iff (msg : List Byte) :
    ReadyMarker.newlineTerminated.accepts msg = true ↔ ∃ start, msg = start ++ [0x0A] := by
  rw [ReadyMarker.accepts, endsInNewline, beq_iff_eq, List.getLast?_eq_some_iff]

namespace Machine

/-- Settles O23: TAKE on a whole frame is `takeFrame`, and the gate goes by the kind of the frame. -/
theorem gateReportsFramesByReadiness : Obligations.GateReportsFramesByReadiness := by
  intro s f hs hd
  have htake : exec .take s = takeFrame f s := by
    rw [exec_take_of_frame hs hd, exec_toInstr, transact_live hs.config hs.noFault]
  refine ⟨_, htake, rfl, rfl, hs.noFault, ?_, fun hne => ?_⟩
  · rintro msg rfl
    exact ⟨rfl, rfl⟩
  · obtain ⟨htok, hready⟩ := gate_of_ne_debug hne s.cfg.marker s.ready
    exact ⟨hready, congrArg Result.token htok⟩

/-- An instruction that changes `ready` took a DEBUG frame with the marker (R113). -/
theorem exec_ready_ne {i : Instr} {s t : State} (h : exec i s = .next t) (hne : t.ready ≠ s.ready) :
    s.ready = false ∧ t.ready = true ∧ ∃ msg, s.cfg.marker.accepts msg = true ∧
      t.result = .token (.frame (.debug msg)) ∧
      (i = .debug msg ∨ (i = .take ∧ decodeHead s.cfg s.buf = .frame (.debug msg))) := by
  obtain ⟨-, -, h⟩ := exec_cases h
  rcases h with ⟨f, hi, ⟨⟩⟩ | ⟨b, -, ⟨⟩⟩ | ⟨-, -, rfl⟩ | ⟨bs, -, -, rfl⟩ | ⟨bs, -, -, rfl⟩ | ⟨-, rfl⟩ | ⟨-, r, -, rfl⟩
  case inl =>
    obtain ⟨hready, msg, rfl, hmsg⟩ := readyAfter_ne hne
    exact ⟨hready, by simp [readyAfter_debug, hmsg], msg, hmsg, rfl, hi⟩
  all_goals exact absurd rfl hne

theorem exec_keeps_ready {i : Instr} {s t : State} (hr : s.ready = true) (h : exec i s = .next t) : t.ready = true := by
  by_contra hne
  obtain ⟨hfalse, -⟩ := exec_ready_ne h (by rwa [hr])
  rw [hfalse] at hr
  cases hr

theorem step_keeps_ready {s t : State} (hr : s.ready = true) (hnr : ∀ es, s.pending ≠ .reset :: es)
    (h : step s = .next t) : t.ready = true := by
  rcases step_cases h with ⟨-, rfl⟩ | ⟨es, hp, -, -⟩ | ⟨i, e, es, -, -, h⟩
  · exact hr
  · exact absurd hp (hnr es)
  · exact exec_keeps_ready (s := s.setPending es) hr h

/-- After the handshake no instruction returns DISCARDED (R112). -/
theorem exec_result_ne_discarded {i : Instr} {s t : State} (hr : s.ready = true) (h : exec i s = .next t) (f : Frame) :
    t.result ≠ .token (.discarded f) := by
  obtain ⟨-, -, h⟩ := exec_cases h
  rcases h with ⟨f', -, ⟨⟩⟩ | ⟨b, -, ⟨⟩⟩ | ⟨-, -, rfl⟩ | ⟨bs, -, -, rfl⟩ | ⟨bs, -, -, rfl⟩ | ⟨-, rfl⟩ |
    ⟨-, r, hres, rfl⟩
  case inl => simp [hr, gateToken_of_ready]
  case inr.inr.inr.inr.inr.inr => exact hres _
  all_goals simp

/-- Settles O24: of all instructions only a taken DEBUG frame writes `ready` (`exec_ready_ne`), and of all other steps
only reset does (`step_keeps_ready`). -/
theorem readyIsSetByTheMarkerOnly : Obligations.ReadyIsSetByTheMarkerOnly := by
  refine ⟨fun _ _ _ => exec_ready_ne, fun s msg hs _ hd hmsg => ?_, fun _ _ => step_keeps_ready,
    fun _ _ _ => exec_result_ne_discarded, newlineTerminated_accepts_iff⟩
  obtain ⟨hw, hbuf⟩ := frameBytes_of_decodeHead hd
  exact ⟨_, exec_frame_at_head hs hw hbuf List.mem_cons_self, by simp [readyAfter_debug, hmsg]⟩

end Machine
end Sys2Proof
end

section
/-! DRAIN and FEED (40_frame_decoder.md R115 to R119): one equation of DRAIN for each kind of TAKE, and from them what a
DRAIN leaves and that bytes can be fed in chunks. -/

namespace Sys2Proof.Machine

/-- The two facts of a TAKE that DRAIN turns on: an incomplete head ends it, and any other token leaves fewer bytes in a
state that can run. -/
theorem exec_take_drains {s : State} (hs : s.Live) :
    (decodeHead s.cfg s.buf = .incomplete ∧ exec .take s = .next { s with result := .token .incomplete }) ∨
      ∃ tok t, exec .take s = .next t ∧ t.result = .token tok ∧ tok ≠ .incomplete ∧
        t.buf.length < s.buf.length ∧ t.Live ∧ t.cfg = s.cfg := by
  obtain ⟨tok, t, ht, hframe, hbuf, hlen⟩ := takeRemovesExactlyItsTokensBytes s hs
  have hres : t.result = .token tok := by rw [hframe]
  have hcfg : t.cfg = s.cfg := by rw [hframe]
  have hfault : t.fault = none := by rw [hframe]; exact hs.noFault
  by_cases htok : tok = .incomplete
  · obtain ⟨hd, rfl⟩ := take_incomplete_eq hs ht (htok ▸ hres)
    exact .inl ⟨hd, ht⟩
  · exact .inr ⟨tok, t, ht, hres, htok, hlen htok, ⟨hcfg ▸ hs.config, hfault⟩, hcfg⟩

theorem drainUpTo_of_incomplete {s t : State} (n : Nat) (ht : exec .take s = .next t)
    (hres : t.result = .token .incomplete) : drainUpTo (n + 1) s = ([], t) := by
  simp only [drainUpTo, ht, hres]

theorem drainUpTo_of_token {s t : State} {tok : Token} (n : Nat) (ht : exec .take s = .next t)
    (hres : t.result = .token tok) (hne : tok ≠ .incomplete) :
    drainUpTo (n + 1) s = (tok :: (drainUpTo n t).1, (drainUpTo n t).2) := by
  cases tok with
  | incomplete => exact absurd rfl hne
  | frame f | discarded f | skipped b => simp only [drainUpTo, ht, hres]

/-- TAKEs beyond the number of bytes change nothing (R116). -/
theorem drainUpTo_eq_drain (n : Nat) {s : State} (hs : s.Live) (hn : s.buf.length < n) : drainUpTo n s = drain s := by
  suffices h : ∀ m, s.buf.length < m → drainUpTo n s = drainUpTo m s from h _ (Nat.lt_succ_self _)
  intro m hm
  induction n generalizing s m with
  | zero => exact absurd hn (Nat.not_lt_zero _)
  | succ n ih =>
    obtain ⟨m, rfl⟩ := Nat.exists_eq_succ_of_ne_zero (Nat.ne_zero_of_lt hm)
    rcases exec_take_drains hs with ⟨-, ht⟩ | ⟨tok, t, ht, hres, hne, hlen, hlive, -⟩
    · rw [drainUpTo_of_incomplete n ht rfl, drainUpTo_of_incomplete m ht rfl]
    · rw [drainUpTo_of_token n ht hres hne, drainUpTo_of_token m ht hres hne, ih hlive (by omega) m (by omega)]

theorem drain_of_incomplete {s t : State} (ht : exec .take s = .next t) (hres : t.result = .token .incomplete) :
    drain s = ([], t) := drainUpTo_of_incomplete _ ht hres

/-- A TAKE with a token is the first of the DRAIN, and the DRAIN goes on after it (R115). -/
theorem drain_of_token {s t : State} {tok : Token} (ht : exec .take s = .next t) (hres : t.result = .token tok)
    (hne : tok ≠ .incomplete) : drain s = (tok :: (drain t).1, (drain t).2) := by
  rcases exec_take_drains (live_of_exec ht) with ⟨-, ht'⟩ | ⟨_, t', ht', -, -, hlen, hlive, -⟩ <;>
    cases ht.symm.trans ht'
  · exact absurd (Result.token.inj hres).symm hne
  · rw [drain, drainUpTo_of_token _ ht hres hne, drainUpTo_eq_drain _ hlive hlen]

/-- What a DRAIN from `s` answers: at most one token a byte, none of them INCOMPLETE, and a state that can still run, in
which INCOMPLETE is the latest result (R116). -/
structure Drained (s : State) (r : List Token × State) : Prop where
  result    : r.2.result = .token .incomplete
  bounded   : r.1.length + r.2.buf.length ≤ s.buf.length
  complete : ∀ t ∈ r.1, t ≠ .incomplete
  live      : r.2.Live
  cfg       : r.2.cfg = s.cfg

theorem drained_drain {s : State} (hs : s.Live) : Drained s (drain s) := by
  induction hlen : s.buf.length using Nat.strong_induction_on generalizing s with
  | _ len ih =>
    rcases exec_take_drains hs with ⟨-, ht⟩ | ⟨tok, t, ht, hres, hne, hlt, hlive, hcfg⟩
    · rw [drain_of_incomplete ht rfl]
      exact ⟨rfl, by simp, by simp, ⟨hs.config, hs.noFault⟩, rfl⟩
    · obtain ⟨hresult, hbounded, hcomplete, hlive', hcfg'⟩ := ih _ (hlen ▸ hlt) hlive rfl
      rw [drain_of_token ht hres hne]
      exact ⟨hresult, by simp only [List.length_cons]; omega, List.forall_mem_cons.2 ⟨hne, hcomplete⟩, hlive',
        hcfg'.trans hcfg⟩

/-- Settles O29: `drained_drain`. -/
theorem drainEndsWithIncomplete : Obligations.DrainEndsWithIncomplete := by
  intro s hs
  obtain ⟨hresult, hbounded, hcomplete, hlive, hcfg⟩ := drained_drain hs
  exact ⟨hresult, by omega, hcomplete, hlive, hcfg⟩

/-- A DRAIN stops at an incomplete head (R117). -/
theorem decodeHead_drain {s : State} (hs : s.Live) : decodeHead s.cfg (drain s).2.buf = .incomplete :=
  (drainReturnsTheUniqueParse s hs).1.ends

theorem frameLen_le {c : Config} {buf : List Byte} {n : Nat} (h : frameLen c buf = some n) : n ≤ 257 := by
  obtain ⟨b, rest, k, rfl, hk⟩ := frameLen_eq_some h
  by_cases hd : k = .debug
  · subst hd
    obtain rfl : b = 0x00 := Config.eq_opcode_of_kindOf hk
    cases rest with
    | nil => cases h
    | cons len body =>
      rw [frameLen_debug] at h
      cases h
      omega
  · rw [frameLen_fixed hk hd] at h
    cases h
    cases k <;> simp [Kind.fixedLength]

/-- An incomplete head is the beginning of one frame, short of it, so it holds at most 256 bytes (R114, R119). -/
theorem length_le_of_decodeHead_incomplete {c : Config} {buf : List Byte} (h : decodeHead c buf = .incomplete) :
    buf.length ≤ 256 := by
  rcases (decodeHead_eq_incomplete_iff c buf).1 h with rfl | rfl | ⟨n, hn, hlt⟩
  · simp
  · simp
  · have := frameLen_le hn
    omega

theorem properPrefix_of_decodeHead_incomplete {c : Config} {buf : List Byte} (h : decodeHead c buf = .incomplete) :
    buf = [] ∨ ∃ op rest, buf = op :: rest ∧ c.kindOf op ≠ none ∧ ∀ n, frameLen c buf = some n → buf.length < n := by
  cases buf with
  | nil => exact .inl rfl
  | cons op rest =>
    refine .inr ⟨op, rest, rfl, fun hk => ?_, fun n hn => ?_⟩
    · rw [decodeHead_of_none hk] at h
      cases h
    · by_contra hle
      obtain ⟨_, _, k, hcons, hk⟩ := frameLen_eq_some hn
      cases hcons
      rw [decodeHead_whole hk hn (Nat.not_lt.1 hle)] at h
      cases h

/-- An APPEND leaves at most what was held and what was presented (R100, R182). -/
theorem length_exec_append_le {s t : State} {bs : List Byte} (h : exec (.append bs) s = .next t) :
    t.buf.length ≤ s.buf.length + bs.length := by
  obtain ⟨-, -, ⟨-, rfl⟩ | ⟨-, rfl⟩⟩ := execAppend_cases h <;> simp

/-- Settles O32: a DRAIN stops at an incomplete head (`decodeHead_drain`), the beginning of one frame, short of it. -/
theorem drainLeavesAtMost256Bytes : Obligations.DrainLeavesAtMost256Bytes := by
  intro s hs
  have hd := decodeHead_drain hs
  have hlen := length_le_of_decodeHead_incomplete hd
  exact ⟨properPrefix_of_decodeHead_incomplete hd, hlen, fun bs t ht =>
    (length_exec_append_le ht).trans (Nat.add_le_add_right hlen _)⟩

/-- A DRAIN does not read the latest result (log 4). -/
theorem drain_setResult {s : State} (hs : s.Live) (r : Result) : drain (s.setResult r) = drain s := by
  have hs' : (s.setResult r).Live := ⟨hs.config, hs.noFault⟩
  have htake : exec .take (s.setResult r) = exec .take s := by
    rw [exec_take, exec_take, execTake_live hs'.config hs'.noFault, execTake_live hs.config hs.noFault]
    cases hd : decodeHead s.cfg s.buf <;> simp only [State.setResult_cfg, State.setResult_buf, hd] <;> rfl
  rcases exec_take_drains hs with ⟨-, ht⟩ | ⟨tok, t, ht, hres, hne, -⟩
  · rw [drain_of_incomplete ht rfl, drain_of_incomplete (htake.trans ht) rfl]
  · rw [drain_of_token ht hres hne, drain_of_token (htake.trans ht) hres hne]

/-- A DRAIN of more bytes is the DRAIN of the first of them, and then one of what that left with the rest of them at its
tail (R118): the TAKEs of the first DRAIN do not see the bytes at the tail (`exec_take_append`). -/
theorem drain_append {s : State} (hs : s.Live) (more : List Byte) :
    let first := drain s
    let rest := drain { first.2 with buf := first.2.buf ++ more }
    drain { s with buf := s.buf ++ more } = (first.1 ++ rest.1, rest.2) := by
  induction hlen : s.buf.length using Nat.strong_induction_on generalizing s with
  | _ len ih =>
    rcases exec_take_drains hs with ⟨-, ht⟩ | ⟨tok, t, ht, hres, hne, hlt, hlive, -⟩
    · have hsame := drain_setResult (s := { s with buf := s.buf ++ more }) ⟨hs.config, hs.noFault⟩ (.token .incomplete)
      rw [drain_of_incomplete ht rfl]
      exact hsame.symm
    · have hmore := exec_take_append ht (by simp [hres, hne]) more
      have hrest := ih _ (hlen ▸ hlt) hlive rfl
      rw [drain_of_token ht hres hne, drain_of_token hmore hres hne, hrest]
      rfl

/-- A FEED that fits is a DRAIN with the bytes at the tail (R79). -/
theorem feed_eq_drain {s : State} (hs : s.Live) {bs : List Byte} (ho : s.overflows bs = false) :
    feed bs s = drain { s with buf := s.buf ++ bs } := by
  rw [feed, exec_append_fits hs ho]
  exact drain_setResult (s := { s with buf := s.buf ++ bs }) ⟨hs.config, hs.noFault⟩ .none

/-- What a FEED that fits leaves: a state that can run, of that configuration, with no more bytes than it was given. -/
theorem drained_feed {s : State} (hs : s.Live) {bs : List Byte} (ho : s.overflows bs = false) :
    Drained { s with buf := s.buf ++ bs } (feed bs s) :=
  feed_eq_drain hs ho ▸ drained_drain ⟨hs.config, hs.noFault⟩

/-- Where two lots of bytes fit together, feeding the first leaves a state that can run, with room for the second. -/
theorem feed_leaves_room {s : State} (hs : s.Live) {bs more : List Byte} (ho : s.overflows (bs ++ more) = false) :
    s.overflows bs = false ∧ (feed bs s).2.Live ∧ (feed bs s).2.overflows more = false := by
  have hbs : s.overflows bs = false := overflows_mono rfl (by simp) ho
  obtain ⟨-, hbounded, -, hlive, hcfg⟩ := drained_feed hs hbs
  refine ⟨hbs, hlive, overflows_mono (s := s) hcfg ?_ ho⟩
  simp only [List.length_append] at hbounded ⊢
  omega

/-- Two FEEDs are one FEED of both (R118). -/
theorem feed_append {s : State} (hs : s.Live) {bs more : List Byte} (ho : s.overflows (bs ++ more) = false) :
    feed (bs ++ more) s = ((feed bs s).1 ++ (feed more (feed bs s).2).1, (feed more (feed bs s).2).2) := by
  obtain ⟨hbs, hlive, hmore⟩ := feed_leaves_room hs ho
  have happend := drain_append (s := { s with buf := s.buf ++ bs }) ⟨hs.config, hs.noFault⟩ more
  rw [feed_eq_drain hlive hmore, feed_eq_drain hs ho, feed_eq_drain hs hbs, ← List.append_assoc]
  exact happend

/-- Feeding one or more chunks in turn is feeding all their bytes at once (R118). -/
theorem feedAll_eq_feed_flatten (c : List Byte) (cs : List (List Byte)) {s : State} (hs : s.Live)
    (ho : s.overflows (c :: cs).flatten = false) : feedAll (c :: cs) s = feed (c :: cs).flatten s := by
  induction cs generalizing c s with
  | nil => simp [feedAll]
  | cons c' cs ih =>
    rw [List.flatten_cons] at ho ⊢
    obtain ⟨-, hlive, hrest⟩ := feed_leaves_room hs ho
    rw [feedAll, feed_append hs ho, ih c' hlive hrest]

/-- Settles O31: both runs are the same (`feedAll_eq_feed_flatten`), and a FEED that fits leaves no fault. -/
theorem chunkingDoesNotChangeTheTokens : Obligations.ChunkingDoesNotChangeTheTokens := by
  intro s chunks hs hne hcap
  obtain ⟨c, cs, rfl⟩ := List.exists_cons_of_ne_nil hne
  have ho := (overflows_eq_false_iff s _).2 hcap
  have hfault := (drained_feed hs ho).live.noFault
  rw [feedAll_eq_feed_flatten c cs hs ho]
  exact ⟨rfl, rfl, rfl, hfault, hfault⟩

end Sys2Proof.Machine
end

section
/-! The configuration, the recorded fault and the order of the stops (60_exceptions.md R180 to R186), and steps
(20_memory.md R51, 70_reset_and_hazards.md R200, R201). -/

namespace Sys2Proof

/-- The four opcode parameters are pairwise distinct (R6, R183). -/
theorem Config.openOpcodes_nodup_iff (c : Config) : c.openOpcodes.Nodup ↔
    c.opButtonUp ≠ c.opPadDown ∧ c.opButtonUp ≠ c.opPadUp ∧ c.opButtonUp ≠ c.opDialChange ∧
      c.opPadDown ≠ c.opPadUp ∧ c.opPadDown ≠ c.opDialChange ∧ c.opPadUp ≠ c.opDialChange := by
  simp [Config.openOpcodes, and_assoc]

theorem Config.capAllowed_iff (c : Config) : c.capAllowed = true ↔ ∀ cap, c.bufCap = some cap → 257 ≤ cap := by
  unfold Config.capAllowed
  cases c.bufCap <;> simp

/-- A configuration is refused exactly when one of the four conditions of R183 holds. -/
theorem Config.valid_eq_false_iff (c : Config) : c.valid = false ↔
    (¬ ((∀ j < 16, c.permAt j < 16) ∧ ∀ i < 16, ∀ j < 16, c.permAt i = c.permAt j → i = j)) ∨
      ¬ (c.opButtonUp ≠ c.opPadDown ∧ c.opButtonUp ≠ c.opPadUp ∧ c.opButtonUp ≠ c.opDialChange ∧
        c.opPadDown ≠ c.opPadUp ∧ c.opPadDown ≠ c.opDialChange ∧ c.opPadUp ≠ c.opDialChange) ∨
      (∃ op ∈ c.openOpcodes, op.toNat < 0x03 ∨ 0x08 < op.toNat) ∨
      ∃ cap, c.bufCap = some cap ∧ cap < 257 := by
  have hrange : (∃ op ∈ c.openOpcodes, op.toNat < 0x03 ∨ 0x08 < op.toNat) ↔
      ¬ ∀ op ∈ c.openOpcodes, 3 ≤ op.toNat ∧ op.toNat ≤ 8 := by
    simp only [not_forall, exists_prop, not_and_or, Nat.not_le]
  have hcap : (∃ cap, c.bufCap = some cap ∧ cap < 257) ↔ ¬ ∀ cap, c.bufCap = some cap → 257 ≤ cap := by
    simp only [not_forall, exists_prop, Nat.not_le]
  rw [← Bool.not_eq_true, c.valid_iff, not_and_or, not_and_or, not_and_or, c.permBijective_iff,
    c.openOpcodes_nodup_iff, c.capAllowed_iff, hrange, hcap]

namespace Machine

/-- A step that is no reset has the guard of a transaction, an idle one too (R185, R186; log 7). -/
theorem step_guarded {s : State} (hnr : ∀ es, s.pending ≠ .reset :: es) :
    ∃ s' body, s'.cfg = s.cfg ∧ s'.fault = s.fault ∧ step s = transact s' body := by
  cases hp : s.pending with
  | nil => exact ⟨s, _, rfl, rfl, step_idle hp⟩
  | cons e es =>
    cases e with
    | command r =>
      obtain ⟨body, hbody⟩ := exec_guarded (decodeCommand r) (s.setPending es)
      exact ⟨s.setPending es, body, rfl, rfl, (step_command hp).trans hbody⟩
    | send o =>
      obtain ⟨body, hbody⟩ := exec_guarded o.toInstr (s.setPending es)
      exact ⟨s.setPending es, body, rfl, rfl, (step_send hp).trans hbody⟩
    | reset => exact absurd hp (hnr es)

/-- An invalid configuration refuses every step, an idle one and a reset too (R183; log 6). -/
theorem step_invalid {s : State} (hc : s.cfg.valid = false) : step s = .refused .configInvalid := by
  by_cases hr : ∃ es, s.pending = .reset :: es
  · obtain ⟨es, hp⟩ := hr
    rw [step_reset hp, takeReset, State.setPending_cfg, hc, if_neg Bool.false_ne_true]
  · obtain ⟨s', body, hcfg, -, hstep⟩ := step_guarded (not_exists.1 hr)
    rw [hstep, transact_invalid (hcfg ▸ hc)]

/-- A recorded fault stops every step but reset (R185). -/
theorem step_faulted {s : State} {r : FaultReason} (hc : s.cfg.valid = true) (hf : s.fault = some r)
    (hnr : ∀ es, s.pending ≠ .reset :: es) : step s = .fault (.stuck r) := by
  obtain ⟨s', body, hcfg, hfault, hstep⟩ := step_guarded hnr
  rw [hstep, transact_faulted (hcfg ▸ hc) (hfault.trans hf)]

/-- While a fault is recorded no instruction answers a next state (R185). -/
theorem exec_ne_next_of_fault {s : State} {r : FaultReason} (hf : s.fault = some r) (i : Instr) (t : State) :
    exec i s ≠ .next t := fun h => by
  cases hf.symm.trans (live_of_exec h).noFault

/-- While a fault is recorded the one step that answers a next state is a reset (R185). -/
theorem pending_eq_reset_of_step {s t : State} {r : FaultReason} (hf : s.fault = some r) (h : step s = .next t) :
    ∃ es, s.pending = .reset :: es := by
  by_contra hr
  obtain ⟨s', body, -, hfault, hstep⟩ := step_guarded (not_exists.1 hr)
  obtain ⟨-, hnone, -⟩ := transact_eq_next (hstep.symm.trans h)
  cases (hfault.trans hf).symm.trans hnone

/-- A presented reset under a valid configuration (R200). -/
theorem step_reset_valid {s : State} {es : List Event} (hc : s.cfg.valid = true) (hp : s.pending = .reset :: es) :
    step s = .next ((State.resetWith s.cfg).setPending es) :=
  (step_reset hp).trans (if_pos hc)

/-- Settles O3: `Config.valid_eq_false_iff`, and the refusal of a step (`step_invalid`) and of an instruction
(`exec_invalid`). -/
theorem invalidConfigurationHasNoStep : Obligations.InvalidConfigurationHasNoStep :=
  ⟨Config.valid_eq_false_iff, fun _ hc => ⟨step_invalid hc, exec_invalid hc⟩, rfl⟩

/-- A step that presents a reset, and answers a next state, is that reset (R200). -/
theorem step_reset_eq_next {s t : State} {es : List Event} (hp : s.pending = .reset :: es) (h : step s = .next t) :
    t = (State.resetWith s.cfg).setPending es := by
  cases hc : s.cfg.valid with
  | false => cases (step_invalid hc).symm.trans h
  | true =>
    cases (step_reset_valid hc hp).symm.trans h
    rfl

/-- Settles O4: with a fault recorded only a reset has a step (`exec_ne_next_of_fault`, `pending_eq_reset_of_step`), and
it clears the fault. -/
theorem faultIsStickyUntilReset : Obligations.FaultIsStickyUntilReset := by
  intro s r hf
  refine ⟨exec_ne_next_of_fault hf, fun t h => ?_, fun hc => step_faulted hc hf, fun hc es hp => ?_⟩
  · obtain ⟨es, hp⟩ := pending_eq_reset_of_step hf h
    rw [step_reset_eq_next hp h]
    exact ⟨⟨es, hp⟩, rfl⟩
  · exact ⟨_, step_reset_valid hc hp, rfl⟩

theorem decodeCommand_reserved {r : Request} (h : 0xD ≤ r.cmd.toNat) :
    decodeCommand r = .reservedD ∨ decodeCommand r = .reservedE ∨ decodeCommand r = .reservedF := by
  have hlt := r.cmd.isLt
  rcases (by omega : r.cmd.toNat = 0xD ∨ r.cmd.toNat = 0xE ∨ r.cmd.toNat = 0xF) with h | h | h <;>
    simp [decodeCommand, h]

/-- A reserved code in a state that can run: the record, no result, and nothing else (R184). -/
theorem exec_reserved_live {s : State} (hs : s.Live) {i : Instr}
    (hi : i = .reservedD ∨ i = .reservedE ∨ i = .reservedF) :
    exec i s = .next { s with fault := some .reservedCommand, result := .none } := by
  rw [exec_reserved hi, transact_live hs.config hs.noFault]
  rfl

theorem mem_reserved_iff {i : Instr} :
    i ∈ [Instr.reservedD, .reservedE, .reservedF] ↔ i = .reservedD ∨ i = .reservedE ∨ i = .reservedF := by
  simp

/-- Settles O5: the three codes are one instruction (`exec_reserved_live`), and its record stops all
(`exec_faulted`). -/
theorem reservedCommandIsRefusedForGood : Obligations.ReservedCommandIsRefusedForGood :=
  ⟨fun _ _ hs hr => ⟨exec_reserved_live hs (decodeCommand_reserved hr), exec_faulted hs.config rfl⟩,
    fun _ hs _ hi => exec_reserved_live hs (mem_reserved_iff.1 hi), rfl⟩

/-- Settles O6: a reserved command has no operand to overflow with, and TAKE leaves the fault (`exec_take_token`). -/
theorem faultsComeInTheFixedOrder : Obligations.FaultsComeInTheFixedOrder := by
  intro s
  refine ⟨exec_invalid, fun hs r hr _ => ?_, fun hs bs ho => ?_, fun hs => ?_⟩
  · exact ⟨_, exec_reserved_live hs (decodeCommand_reserved hr), rfl⟩
  · exact ⟨_, exec_append_overflows hs ho, rfl⟩
  · obtain ⟨tok, t, ht, hframe, -⟩ := exec_take_token hs
    exact ⟨t, ht, by rw [hframe]; exact hs.noFault⟩

/-- Settles O7: of all that an instruction can have done, two write the record (`exec_cases`). -/
theorem onlyOverflowAndReservedCodesFault : Obligations.OnlyOverflowAndReservedCodesFault := by
  intro i s t h hne
  obtain ⟨-, hf, h⟩ := exec_cases h
  rcases h with ⟨f, -, ⟨⟩⟩ | ⟨b, -, ⟨⟩⟩ | ⟨-, -, rfl⟩ | ⟨bs, -, -, rfl⟩ | ⟨bs, hi, ho, rfl⟩ | ⟨hi, rfl⟩ | ⟨-, r, -, rfl⟩
  case inr.inr.inr.inr.inl =>
    obtain ⟨cap, hcap, hlt⟩ := (overflows_eq_true_iff s bs).1 ho
    exact .inr ⟨bs, cap, hi, hcap, hlt, rfl⟩
  case inr.inr.inr.inr.inr.inl => exact .inl ⟨mem_reserved_iff.2 hi, rfl⟩
  all_goals exact absurd hf hne

/-- Settles O8: reset keeps the configuration, an idle step the state, and an instruction is `exec_keeps_cfg`. -/
theorem configurationIsNeverWritten : Obligations.ConfigurationIsNeverWritten := by
  refine ⟨fun i s t h => (exec_keeps_cfg h).1, fun s t h => ?_⟩
  rcases step_cases h with ⟨-, rfl⟩ | ⟨es, -, -, rfl⟩ | ⟨i, e, es, -, -, h⟩
  · rfl
  · rfl
  · exact (exec_keeps_cfg h).1

/-- Settles O1: the reset state, and a reset event (`step_reset_valid`). -/
theorem resetPutsTheBlockInItsResetState : Obligations.ResetPutsTheBlockInItsResetState :=
  ⟨fun _ => ⟨rfl, rfl, rfl, rfl⟩, fun _ _ hc hp => ⟨_, step_reset_valid hc hp, rfl, rfl, rfl, rfl⟩⟩

/-- Settles O2: the first bytes after a reset are the whole buffer, so their first byte is at the head. -/
theorem resetDiscardsAPartialFrame : Obligations.ResetDiscardsAPartialFrame := by
  intro s es hc hp
  have hlive : ((State.resetWith s.cfg).setPending es).Live := ⟨hc, rfl⟩
  obtain ⟨-, hskip, -⟩ := takeSkipsOneUnrecognisedByte
  refine ⟨_, step_reset_valid hc hp, fun bs ho => ⟨_, exec_append_fits hlive ho, rfl, rfl, fun b rest hbs hb => ?_⟩⟩
  obtain ⟨htake, -⟩ := hskip { (State.resetWith s.cfg).setPending es with buf := bs } b rest ⟨hc, rfl⟩ hbs hb
  exact ⟨_, htake, rfl, rfl⟩

/-- Settles O9: `step_command` and `step_send`. -/
theorem stepRunsThePresentedInstruction : Obligations.StepRunsThePresentedInstruction :=
  ⟨fun _ _ _ => step_command, fun _ _ _ => step_send⟩

/-- Settles O11: an idle step in a state that can run. -/
theorem idleStepHoldsTheState : Obligations.IdleStepHoldsTheState := fun _ hs hp =>
  (step_idle hp).trans (transact_live hs.config hs.noFault _)

/-- Instructions that agree in the states that can run agree in all: the guard is one (R185, R186). -/
theorem exec_congr_of_live {i j : Instr} {s : State} (h : s.Live → exec i s = exec j s) : exec i s = exec j s := by
  cases hc : s.cfg.valid with
  | false => rw [exec_invalid hc, exec_invalid hc]
  | true =>
    cases hf : s.fault with
    | none => exact h ⟨hc, hf⟩
    | some r => rw [exec_faulted hc hf, exec_faulted hc hf]

theorem exec_take_eq_of_decode {s : State} {i : Instr} {rest : List Byte}
    (h : decode s.cfg (.inbound s.buf) = .ok (i, rest)) : exec .take s = exec i s := by
  refine exec_congr_of_live fun hs => ?_
  rcases decode_inbound_eq_ok h with ⟨b, hd, rfl, -⟩ | ⟨f, hd, rfl, -⟩
  · exact exec_take_of_skipped hs hd
  · exact exec_take_of_frame hs hd

/-- Settles O10: what is decoded is what stands at the head, in the state with the event taken from the queue too. -/
theorem takeRunsWhatStandsAtTheHead : Obligations.TakeRunsWhatStandsAtTheHead := fun s _ _ h =>
  ⟨exec_take_eq_of_decode h, fun es => exec_take_eq_of_decode (s := { s with pending := es }) h⟩

end Machine
end Sys2Proof
end

section
/-! The command codes (30_encoding.md R63): the transaction each selects, and the kind of result it returns. -/

namespace Sys2Proof.Machine

theorem decodeCommand_transform {r : Request} (hlo : 0x4 ≤ r.cmd.toNat) (hhi : r.cmd.toNat ≤ 0xC) :
    ∃ x ∈ [Instr.invert, .rotl, .rotr, .flipv, .fliph, .shl, .shr, .shu, .shd], decodeCommand r = x r.grid := by
  unfold decodeCommand
  generalize r.cmd.toNat = n at hlo hhi
  interval_cases n <;> exact ⟨_, by simp, rfl⟩

/-- A transaction that only responds answers with that response. -/
theorem result_of_transact_respond {s t : State} {r : Result} (h : transact s (respond r) = .next t) :
    t = s.setResult r := by
  obtain ⟨-, -, h⟩ := transact_eq_next h
  cases h
  rfl

/-! ### The kind of result each transaction returns, by the table of R63 -/

theorem result_of_transform {x : Grid → Instr}
    (hx : x ∈ [Instr.invert, .rotl, .rotr, .flipv, .fliph, .shl, .shr, .shu, .shd]) {g : Grid} {s t : State}
    (h : exec (x g) s = .next t) : ∃ g', t.result = .grid g' := by
  obtain ⟨g', hbody⟩ := exec_transform hx g
  rw [result_of_transact_respond ((hbody s).symm.trans h)]
  exact ⟨g', rfl⟩

theorem result_of_append {bs : List Byte} {s t : State} (h : exec (.append bs) s = .next t) : t.result = .none := by
  obtain ⟨-, -, ⟨-, rfl⟩ | ⟨-, rfl⟩⟩ := execAppend_cases h <;> rfl

theorem result_of_take {s t : State} (h : exec .take s = .next t) : ∃ k, t.result = .token k := by
  obtain ⟨tok, t', ht, hframe, -⟩ := exec_take_token (live_of_exec h)
  cases ht.symm.trans h
  exact ⟨tok, by rw [hframe]⟩

theorem result_of_unpack {w : Wire} {s t : State} (h : exec (.unpack w) s = .next t) : ∃ g, t.result = .grid g := by
  cases (exec_unpack_live (live_of_exec h) w).symm.trans h
  exact ⟨_, rfl⟩

theorem result_of_pack {g : Grid} {s t : State} (h : exec (.pack g) s = .next t) : ∃ w, t.result = .wire w := by
  cases (exec_pack_live (live_of_exec h) g).symm.trans h
  exact ⟨_, rfl⟩

theorem result_of_reserved {i : Instr} (hi : i = .reservedD ∨ i = .reservedE ∨ i = .reservedF) {s t : State}
    (h : exec i s = .next t) : t.result = .none := by
  cases (exec_reserved_live (live_of_exec h) hi).symm.trans h
  rfl

/-- Settles O37: the codes are read off the decoder, the results are those of the selected transactions. -/
theorem commandCodesSelectTheirTransactions : Obligations.CommandCodesSelectTheirTransactions := by
  refine ⟨fun bs w g => ⟨rfl, rfl, rfl, rfl, rfl, rfl, rfl, rfl, rfl, rfl, rfl, rfl, rfl, rfl, rfl, rfl⟩,
    fun s r t h => ⟨fun hr => ?_, fun hr => ?_, fun hr => ?_, fun hr => ?_, fun hlo hhi => ?_, fun hr => ?_⟩⟩
  · exact result_of_append (decodeCommand_append r hr ▸ h)
  · exact result_of_take (decodeCommand_take r hr ▸ h)
  · exact result_of_unpack (decodeCommand_unpack r hr ▸ h)
  · exact result_of_pack (decodeCommand_pack r hr ▸ h)
  · obtain ⟨x, hx, hdec⟩ := decodeCommand_transform hlo hhi
    exact result_of_transform hx (hdec ▸ h)
  · exact result_of_reserved (decodeCommand_reserved hr) h

end Sys2Proof.Machine
end

section
/-! The unrecognised opcodes (30_encoding.md R74). -/

namespace Sys2Proof

/-- Under a valid configuration every opcode is below 9 (R6, R61). -/
theorem Config.opcode_le {c : Config} (hc : c.valid = true) (k : Kind) : (c.opcode k).toNat ≤ 8 := by
  obtain ⟨-, -, hrange, -⟩ := c.valid_iff.1 hc
  cases k with
  | debug | syncgrid | buttondown => simp [Config.opcode]
  | buttonup | padDown | padUp | dialchange => exact (hrange _ (by simp [Config.opcode, Config.openOpcodes])).2

theorem Config.kindOf_eq_none_of_large {c : Config} (hc : c.valid = true) {op : Byte} (h : 0x09 ≤ op.toNat) :
    c.kindOf op = none := by
  refine Option.eq_none_iff_forall_ne_some.2 fun k hk => ?_
  have := Config.opcode_le hc k
  rw [← Config.eq_opcode_of_kindOf hk] at this
  omega

/-- From 3 on only the four parameters are recognised (R61). -/
theorem Config.kindOf_eq_none_iff (c : Config) {op : Byte} (h : 0x03 ≤ op.toNat) :
    c.kindOf op = none ↔ op ∉ c.openOpcodes := by
  have hfixed : ∀ b : Byte, b.toNat < 3 → op ≠ b := by
    rintro b hb rfl
    omega
  rw [Config.kindOf, if_neg (hfixed 0x00 (by decide)), if_neg (hfixed 0x01 (by decide)),
    if_neg (hfixed 0x02 (by decide))]
  split_ifs <;> simp [Config.openOpcodes, *]

/-- The seven recognised values are below 9, so two values below 9 are left. -/
theorem Config.unrecognised_below_nine {c : Config} (hc : c.valid = true) :
    ((List.range 9).filter fun n => (c.kindOf (BitVec.ofNat 8 n)).isNone).length = 2 := by
  have hseven : (List.range 256).countP (fun n => (c.kindOf (BitVec.ofNat 8 n)).isSome) = 7 := by
    obtain ⟨-, -, -, -, -, -, -, -, -, hcount⟩ := recognisedOpcodesAreExactlySeven c hc
    rw [List.countP_eq_length_filter, hcount]
  have hlarge : (List.range' 9 247).countP (fun n => (c.kindOf (BitVec.ofNat 8 n)).isSome) = 0 := by
    refine List.countP_eq_zero.2 fun n hn => ?_
    rw [List.mem_range'_1] at hn
    have hnine : 0x09 ≤ (BitVec.ofNat 8 n).toNat := by rw [BitVec.toNat_ofNat]; omega
    simp [Config.kindOf_eq_none_of_large hc hnine]
  have hsplit : List.range 256 = List.range 9 ++ List.range' 9 247 := by decide +kernel
  have htotal := List.length_eq_countP_add_countP (fun n => (c.kindOf (BitVec.ofNat 8 n)).isSome) (l := List.range 9)
  rw [hsplit, List.countP_append, hlarge] at hseven
  simp only [List.length_range, Bool.not_eq_true, Option.isSome_eq_false_iff, Bool.decide_eq_true] at htotal
  rw [← List.countP_eq_length_filter]
  omega

/-- Settles O34: opcodes are below 9, and from 3 on they are the four parameters. -/
theorem unrecognisedOpcodesAreTheRest : Obligations.UnrecognisedOpcodesAreTheRest := fun c hc =>
  ⟨fun _ => Config.kindOf_eq_none_of_large hc, fun _ h _ => c.kindOf_eq_none_iff h, Config.unrecognised_below_nine hc⟩

end Sys2Proof
end

section
/-! UNPACK and PACK as transactions that undo each other (41_grid_codec.md R135, R138), and the outbound frames
(30_encoding.md R71 to R73, R79). -/

namespace Sys2Proof.Machine

/-- Settles O43: the two maps undo each other (`unpackWire_packWire`, `packWire_unpackWire`), and the first transaction
leaves the second a state that can run. -/
theorem codecRoundTrips : Obligations.CodecRoundTrips := by
  intro s hs
  obtain ⟨hp, -⟩ := s.cfg.valid_iff.1 hs.config
  refine ⟨fun g => ⟨_, _, exec_pack_live hs g, rfl, ?_⟩, fun w => ⟨_, _, exec_unpack_live hs w, rfl, ?_⟩⟩
  · have hunpack := exec_unpack_live (s := { s with result := .wire (packWire s.cfg g) }) ⟨hs.config, hs.noFault⟩
      (packWire s.cfg g)
    rwa [unpackWire_packWire hp] at hunpack
  · have hpack := exec_pack_live (s := { s with result := .grid (unpackWire s.cfg w) }) ⟨hs.config, hs.noFault⟩
      (unpackWire s.cfg w)
    rwa [packWire_unpackWire hp] at hpack

/-- An outbound frame in a state that can run returns its bytes and writes no other state (R71 to R73; log 10). -/
theorem exec_outbound_live {s : State} (hs : s.Live) (o : Outbound) :
    exec o.toInstr s = .next { s with result := .sent (outboundBytes s.cfg o) } := by
  cases o with
  | gridUpdate g => exact (exec_gridUpdate g s).trans (transact_live hs.config hs.noFault _)
  | syncExit => exact (exec_syncExit s).trans (transact_live hs.config hs.noFault _)
  | syncEnter => exact (exec_syncEnter s).trans (transact_live hs.config hs.noFault _)

/-- SENDGRID puts 0x01 before PACK's bytes, which is the grid update (R71, R79). -/
theorem sendGrid_live {s : State} (hs : s.Live) (g : Grid) :
    sendGrid g s = some (outboundBytes s.cfg (.gridUpdate g)) := by
  rw [sendGrid, exec_pack_live hs g]
  rfl

/-- Settles O46: `exec_outbound_live` for each outbound frame, and `sendGrid_live`. -/
theorem outboundFramesAreAssembled : Obligations.OutboundFramesAreAssembled := fun _ hs =>
  ⟨fun g => ⟨exec_outbound_live hs (.gridUpdate g), sendGrid_live hs g⟩, exec_outbound_live hs .syncExit,
    exec_outbound_live hs .syncEnter⟩

/-- An instruction that only returns a value writes nothing else. -/
theorem exec_resultOnly_eq {i : Instr} (hi : ResultOnly i) {s t : State} (h : exec i s = .next t) :
    ∃ r, t = s.setResult r := by
  obtain ⟨r, -, hbody⟩ := exec_resultOnly hi s
  exact ⟨r, result_of_transact_respond (hbody.symm.trans h)⟩

/-- Settles O55: UNPACK, PACK, the transforms and the outbound frames only return a value. -/
theorem codecAndTransformsWriteNoState : Obligations.CodecAndTransformsWriteNoState := by
  intro i s t h hi
  have honly : ResultOnly i := by
    rcases hi with ⟨w, rfl⟩ | ⟨o, rfl⟩ | ⟨g, hg⟩
    · trivial
    · cases o <;> trivial
    · simp only [List.mem_cons, List.not_mem_nil, or_false] at hg
      rcases hg with rfl | rfl | rfl | rfl | rfl | rfl | rfl | rfl | rfl | rfl <;> trivial
  obtain ⟨r, rfl⟩ := exec_resultOnly_eq honly h
  exact ⟨rfl, rfl, rfl, rfl, rfl⟩

end Sys2Proof.Machine
end

section
/-! The number of set cells (42_grid_transforms.md R161, 41_grid_codec.md R138): a bijection of the cells keeps it. -/

namespace Sys2Proof.Machine

/-- An injective map of the numbers below `n` into themselves keeps how many of them have a property. -/
theorem countP_range_comp {n : Nat} {σ : Nat → Nat} (hlt : ∀ i < n, σ i < n)
    (hinj : ∀ i < n, ∀ j < n, σ i = σ j → i = j) (q : Nat → Bool) :
    (List.range n).countP (fun i => q (σ i)) = (List.range n).countP q := by
  have hnodup : ((List.range n).map σ).Nodup := List.Nodup.map_on
    (fun i hi j hj => hinj i (List.mem_range.1 hi) j (List.mem_range.1 hj)) List.nodup_range
  have hsub : (List.range n).map σ ⊆ List.range n := fun k hk => by
    obtain ⟨i, hi, rfl⟩ := List.mem_map.1 hk
    exact List.mem_range.2 (hlt i (List.mem_range.1 hi))
  have hperm : ((List.range n).map σ).Perm (List.range n) :=
    (List.subperm_of_subset hnodup hsub).perm_of_length_le (by simp)
  rw [← hperm.countP_eq q, List.countP_map]
  rfl

/-- A grid whose bit `i` is bit `σ i` of some bits has as many set cells as there are set bits, where `σ` is a
bijection of the 64. -/
theorem setCells_eq_countP {g : Grid} {σ : Nat → Nat} {q : Nat → Bool} (hlt : ∀ i < 64, σ i < 64)
    (hinj : ∀ i < 64, ∀ j < 64, σ i = σ j → i = j) (hbit : ∀ i < 64, g.getLsbD i = q (σ i)) :
    setCells g = (List.range 64).countP q := by
  rw [← countP_range_comp hlt hinj q]
  exact List.countP_congr fun i hi => by rw [hbit i (List.mem_range.1 hi)]

/-- UNPACK sets as many cells as there are set wire bits: the table moves them by a bijection (R132, R133). -/
theorem setCells_unpackWire {c : Config} (hp : c.permBijective = true) (w : Wire) :
    setCells (unpackWire c w) = (List.range 64).countP (wireBit c.bitOrder w) := by
  obtain ⟨hlt, hinj⟩ := c.permBijective_iff.1 hp
  refine setCells_eq_countP (σ := fun i => 4 * c.permAt (i / 4) + i % 4) (fun i hi => ?_) (fun i hi j hj h => ?_)
    fun i hi => tabulate_getLsbD _ hi
  · have := hlt (i / 4) (by omega)
    omega
  · have := hinj (i / 4) (by omega) (j / 4) (by omega) (by omega)
    omega

/-- The payload of R138: 0xFF and seven zeros. -/
def oneFullByte : Wire := #v[0xFF, 0, 0, 0, 0, 0, 0, 0]

theorem oneFullByte_bytes : ∀ i < 8, oneFullByte.toList.getD i 0 = if i = 0 then 0xFF else 0x00 := by decide

/-- It has eight set wire bits, in either bit order. -/
theorem countP_wireBit_oneFullByte (o : BitOrder) : (List.range 64).countP (wireBit o oneFullByte) = 8 := by
  cases o <;> decide +kernel

/-- Settles O44: the frame's bytes are at the head (`exec_gated_frame_at_head`), the cells are those of its full byte
(`wireBit_of_one_full_byte`), and the table keeps their number (`setCells_unpackWire`). -/
theorem syncgridOfOneFullByteDecodes : Obligations.SyncgridOfOneFullByteDecodes := by
  intro s rest hs hready hbuf
  obtain ⟨hp, -⟩ := s.cfg.valid_iff.1 hs.config
  have htake := exec_gated_frame_at_head (f := .syncgrid oneFullByte) (i := .take) hs (by simp) hbuf List.mem_cons_self
  rw [if_pos hready] at htake
  refine ⟨oneFullByte, _, unpackWire s.cfg oneFullByte, htake, rfl, rfl,
    exec_unpack_live (s := { s with buf := rest, result := .token (.frame (.syncgrid oneFullByte)) })
      ⟨hs.config, hs.noFault⟩ oneFullByte, fun j b hj hb => ?_, ?_⟩
  · rw [unpackWire_bit _ _ hj hb]
    exact wireBit_of_one_full_byte _ oneFullByte_bytes (Config.permAt_lt hp hj) hb
  · rw [setCells_unpackWire hp, countP_wireBit_oneFullByte]

end Sys2Proof.Machine
end

section
/-! The transforms other than INVERT move the cells (42_grid_transforms.md R152 to R159, R161): each by a bijection,
from which the laws about INVERT and about the number of set cells follow for all of them at once. -/

namespace Sys2Proof

theorem cell_empty (x y : Nat) : cell 0 x y = false := BitVec.getLsbD_zero

theorem getLsbD_eq_cell (g : Grid) (i : Nat) : g.getLsbD i = cell g (i % 8) (i / 8) := by
  rw [cell, Nat.div_add_mod]

namespace Machine

/-- `f` moves the cells: it puts at column `x` and row `y` what stands at column `u x y` and row `v x y` of its operand,
and takes no cell twice. -/
structure MovesCells (f : Grid → Grid) (u v : Nat → Nat → Nat) : Prop where
  cell_eq : ∀ g x y, x < 8 → y < 8 → cell (f g) x y = cell g (u x y) (v x y)
  bounded : ∀ x y, x < 8 → y < 8 → u x y < 8 ∧ v x y < 8
  once    : ∀ x y x' y', x < 8 → y < 8 → x' < 8 → y' < 8 → u x y = u x' y' → v x y = v x' y' → x = x' ∧ y = y'

/-- The eight transforms other than INVERT move the cells (R152 to R159). -/
theorem exists_movesCells {f : Grid → Grid}
    (hf : f ∈ [rotlGrid, rotrGrid, flipvGrid, fliphGrid, shlGrid, shrGrid, shuGrid, shdGrid]) :
    ∃ u v, MovesCells f u v := by
  simp only [List.mem_cons, List.not_mem_nil, or_false] at hf
  rcases hf with rfl | rfl | rfl | rfl | rfl | rfl | rfl | rfl
  · exact ⟨fun _ y => 7 - y, fun x _ => x, fun g _ _ => cell_rotl g, by omega, by omega⟩
  · exact ⟨fun _ y => y, fun x _ => 7 - x, fun g _ _ => cell_rotr g, by omega, by omega⟩
  · exact ⟨fun x _ => x, fun _ y => 7 - y, fun g _ _ => cell_flipv g, by omega, by omega⟩
  · exact ⟨fun x _ => 7 - x, fun _ y => y, fun g _ _ => cell_fliph g, by omega, by omega⟩
  · exact ⟨fun x _ => (x + 1) % 8, fun _ y => y, fun g _ _ => cell_shl g, by omega, by omega⟩
  · exact ⟨fun x _ => (x + 7) % 8, fun _ y => y, fun g _ _ => cell_shr g, by omega, by omega⟩
  · exact ⟨fun x _ => x, fun _ y => (y + 1) % 8, fun g _ _ => cell_shu g, by omega, by omega⟩
  · exact ⟨fun x _ => x, fun _ y => (y + 7) % 8, fun g _ _ => cell_shd g, by omega, by omega⟩

section
variable {f : Grid → Grid} {u v : Nat → Nat → Nat} (hf : MovesCells f u v)
include hf

/-- Moving the cells keeps the number of set ones. -/
theorem MovesCells.setCells (g : Grid) : setCells (f g) = setCells g := by
  refine setCells_eq_countP (σ := fun i => 8 * v (i % 8) (i / 8) + u (i % 8) (i / 8)) (fun i hi => ?_)
    (fun i hi j hj h => ?_) fun i hi => ?_
  · have := hf.bounded (i % 8) (i / 8) (by omega) (by omega)
    omega
  · have hbi := hf.bounded (i % 8) (i / 8) (by omega) (by omega)
    have hbj := hf.bounded (j % 8) (j / 8) (by omega) (by omega)
    have := hf.once (i % 8) (i / 8) (j % 8) (j / 8) (by omega) (by omega) (by omega) (by omega) (by omega) (by omega)
    omega
  · rw [getLsbD_eq_cell, hf.cell_eq g _ _ (by omega) (by omega)]
    rfl

/-- Complementing and moving the cells can be done in either order. -/
theorem MovesCells.invertGrid_comm (g : Grid) : invertGrid (f g) = f (invertGrid g) :=
  grid_ext fun x y hx hy => by
    obtain ⟨hu, hv⟩ := hf.bounded x y hx hy
    rw [cell_invert _ hx hy, hf.cell_eq _ x y hx hy, hf.cell_eq _ x y hx hy, cell_invert _ hu hv]

end

/-- INVERT makes the set cells the clear ones (R151). -/
theorem setCells_invertGrid (g : Grid) : setCells (invertGrid g) + setCells g = 64 := by
  have hclear : setCells (invertGrid g) = (List.range 64).countP fun i => !g.getLsbD i :=
    List.countP_congr fun i hi => by
      rw [List.mem_range] at hi
      rw [getLsbD_eq_cell, cell_invert _ (by omega) (by omega), ← getLsbD_eq_cell]
  have htotal := List.length_eq_countP_add_countP (fun i => g.getLsbD i) (l := List.range 64)
  simp only [List.length_range, Bool.not_eq_true, Bool.decide_eq_false] at htotal
  rw [hclear, setCells]
  omega

/-- Settles O54: the eight move the cells, and INVERT complements them. -/
theorem transformsKeepTheNumberOfSetCells : Obligations.TransformsKeepTheNumberOfSetCells := by
  refine ⟨fun f hf g => ?_, setCells_invertGrid⟩
  obtain ⟨u, v, hmoves⟩ := exists_movesCells hf
  exact hmoves.setCells g

theorem shlGrid_shrGrid (g : Grid) : shlGrid (shrGrid g) = g :=
  grid_ext fun x y hx hy => by
    rw [cell_shl _ hx hy, cell_shr _ (by omega) hy, show ((x + 1) % 8 + 7) % 8 = x by omega]

theorem shdGrid_shuGrid (g : Grid) : shdGrid (shuGrid g) = g :=
  grid_ext fun x y hx hy => by
    rw [cell_shd _ hx hy, cell_shu _ hx (by omega), show ((y + 7) % 8 + 1) % 8 = y by omega]

theorem shuGrid_shdGrid (g : Grid) : shuGrid (shdGrid g) = g :=
  grid_ext fun x y hx hy => by
    rw [cell_shu _ hx hy, cell_shd _ hx (by omega), show ((y + 1) % 8 + 7) % 8 = y by omega]

theorem cell_shl_iterate (n : Nat) (g : Grid) {x y : Nat} (hx : x < 8) (hy : y < 8) :
    cell (shlGrid^[n] g) x y = cell g ((x + n) % 8) y := by
  induction n generalizing g with
  | zero => rw [Function.iterate_zero_apply, Nat.add_zero, Nat.mod_eq_of_lt hx]
  | succ n ih =>
    rw [Function.iterate_succ_apply, ih, cell_shl _ (Nat.mod_lt _ (by decide)) hy,
      show ((x + n) % 8 + 1) % 8 = (x + (n + 1)) % 8 by omega]

theorem cell_shu_iterate (n : Nat) (g : Grid) {x y : Nat} (hx : x < 8) (hy : y < 8) :
    cell (shuGrid^[n] g) x y = cell g x ((y + n) % 8) := by
  induction n generalizing g with
  | zero => rw [Function.iterate_zero_apply, Nat.add_zero, Nat.mod_eq_of_lt hy]
  | succ n ih =>
    rw [Function.iterate_succ_apply, ih, cell_shu _ hx (Nat.mod_lt _ (by decide)),
      show ((y + n) % 8 + 1) % 8 = (y + (n + 1)) % 8 by omega]

theorem shlGrid_eight_times (g : Grid) : shlGrid^[8] g = g :=
  grid_ext fun x y hx hy => by rw [cell_shl_iterate 8 g hx hy, show (x + 8) % 8 = x by omega]

theorem shuGrid_eight_times (g : Grid) : shuGrid^[8] g = g :=
  grid_ext fun x y hx hy => by rw [cell_shu_iterate 8 g hx hy, show (y + 8) % 8 = y by omega]

/-- What undoes a map that is the identity after `n` times is itself the identity after `n` times. -/
theorem iterate_eq_of_leftInverse {f f' : Grid → Grid} (h : Function.LeftInverse f f') {n : Nat} (hf : ∀ g, f^[n] g = g)
    (g : Grid) : f'^[n] g = g :=
  (hf _).symm.trans (h.iterate n g)

/-- A half turn reverses both coordinates (R152, R154, R155). -/
theorem cell_flipv_fliph (g : Grid) {x y : Nat} (hx : x < 8) (hy : y < 8) :
    cell (flipvGrid (fliphGrid g)) x y = cell g (7 - x) (7 - y) ∧
      cell (fliphGrid (flipvGrid g)) x y = cell g (7 - x) (7 - y) :=
  ⟨by rw [cell_flipv _ hx hy, cell_fliph _ hx (by omega)], by rw [cell_fliph _ hx hy, cell_flipv _ (by omega) hy]⟩

/-- Settles O53: each law is read off the cells; SHR and SHD are the inverses of SHL and SHU, ROTR is ROTL three times,
and what moves the cells commutes with INVERT (`MovesCells.invertGrid_comm`). -/
theorem furtherTransformLaws : Obligations.FurtherTransformLaws := by
  intro g
  refine ⟨shlGrid_shrGrid g, shdGrid_shuGrid g, shuGrid_shdGrid g, shlGrid_eight_times g,
    iterate_eq_of_leftInverse shlGrid_shrGrid shlGrid_eight_times g, shuGrid_eight_times g,
    iterate_eq_of_leftInverse shuGrid_shdGrid shuGrid_eight_times g, rotlGrid_four_times g,
    grid_ext fun x y hx hy => ?_, grid_ext fun x y hx hy => ?_, fun f hf => ?_⟩
  · rw [cell_rotl_rotl g hx hy, (cell_flipv_fliph g hx hy).1]
  · rw [cell_rotl_rotl g hx hy, (cell_flipv_fliph g hx hy).2]
  · obtain ⟨u, v, hmoves⟩ := exists_movesCells hf
    exact hmoves.invertGrid_comm g

/-! ### The rotations and the shifts as transactions -/

theorem decodeCommand_rotl (r : Request) (h : r.cmd = 0x5) : decodeCommand r = .rotl r.grid := by
  simp [decodeCommand, h]

theorem decodeCommand_rotr (r : Request) (h : r.cmd = 0x6) : decodeCommand r = .rotr r.grid := by
  simp [decodeCommand, h]

theorem rotlGrid_empty : rotlGrid 0 = 0 :=
  grid_ext fun x y hx hy => by rw [cell_rotl _ hx hy, cell_empty, cell_empty]

theorem rotlGrid_full : rotlGrid 0xFFFFFFFFFFFFFFFF = 0xFFFFFFFFFFFFFFFF :=
  grid_ext fun x y hx hy => by rw [cell_rotl _ hx hy, cell_full (by omega) hx, cell_full hx hy]

/-- Settles O49: where a cell comes from is `cell_rotl` and `cell_rotr`; where it goes to is the same at the target. -/
theorem rotationsMoveCellsByQuarterTurns : Obligations.RotationsMoveCellsByQuarterTurns := by
  refine ⟨fun r => ⟨decodeCommand_rotl r, decodeCommand_rotr r⟩, fun s g hs =>
    ⟨(exec_rotl g s).trans (transact_respond_live hs _), (exec_rotr g s).trans (transact_respond_live hs _), rfl,
      fun x y hx hy => ⟨cell_rotl g hx hy, ?_, cell_rotr g hx hy, ?_⟩, ?_, ?_⟩⟩
  · rw [cell_rotl g hy (by omega), show 7 - (7 - x) = x by omega]
  · rw [cell_rotr g (by omega) hx, show 7 - (7 - y) = y by omega]
  · rintro rfl
    exact rotlGrid_empty
  · rintro rfl
    exact rotlGrid_full

/-- Rotating right by `r` puts at each place what stood `r` places further up, cyclically. -/
theorem getLsbD_rotateRight_mod {w r i : Nat} (b : BitVec w) (hr : r < w) (hi : i < w) :
    (b.rotateRight r).getLsbD i = b.getLsbD ((i + r) % w) := by
  rw [BitVec.getLsbD_rotateRight_of_lt hr]
  by_cases h : i < w - r
  · rw [decide_eq_true h, cond_true, Nat.mod_eq_of_lt (by omega), Nat.add_comm]
  · rw [decide_eq_false h, cond_false, decide_eq_true hi, Bool.true_and, Nat.mod_eq_sub_mod (by omega),
      Nat.mod_eq_of_lt (by omega), show i - (w - r) = i + r - w by omega]

/-- Rotating left undoes rotating right: it puts at each place what stood `w - r` places further up, cyclically. -/
theorem getLsbD_rotateLeft_mod {w r i : Nat} (b : BitVec w) (hr : r < w) (hi : i < w) :
    (b.rotateLeft r).getLsbD i = b.getLsbD ((i + (w - r)) % w) := by
  rw [BitVec.getLsbD_rotateLeft, Nat.mod_eq_of_lt hr]
  by_cases h : i < r
  · rw [decide_eq_true h, cond_true, Nat.mod_eq_of_lt (by omega), Nat.add_comm]
  · rw [decide_eq_false h, cond_false, decide_eq_true hi, Bool.true_and, Nat.mod_eq_sub_mod (by omega),
      Nat.mod_eq_of_lt (by omega), show i - r = i + (w - r) - w by omega]

/-- The closed form of SHL on a row (R156). -/
theorem row_shl (g : Grid) {y : Nat} (hy : y < 8) : row (shlGrid g) y = (row g y).rotateRight 1 :=
  row_eq fun x hx => by
    rw [cell_shl g hx hy, getLsbD_rotateRight_mod _ (by decide) hx, row_getLsbD g y (Nat.mod_lt _ (by decide))]

/-- The closed form of SHR on a row (R157). -/
theorem row_shr (g : Grid) {y : Nat} (hy : y < 8) : row (shrGrid g) y = (row g y).rotateLeft 1 :=
  row_eq fun x hx => by
    rw [cell_shr g hx hy, getLsbD_rotateLeft_mod _ (by decide) hx, row_getLsbD g y (Nat.mod_lt _ (by decide))]

/-- The closed form of SHU (R158). -/
theorem shuGrid_eq_rotateRight (g : Grid) : shuGrid g = g.rotateRight 8 :=
  grid_ext fun x y hx hy => by
    rw [cell_shu g hx hy, cell, cell, getLsbD_rotateRight_mod _ (by decide) (by omega),
      show 8 * ((y + 1) % 8) + x = (8 * y + x + 8) % 64 by omega]

/-- The closed form of SHD (R159). -/
theorem shdGrid_eq_rotateLeft (g : Grid) : shdGrid g = g.rotateLeft 8 :=
  grid_ext fun x y hx hy => by
    rw [cell_shd g hx hy, cell, cell, getLsbD_rotateLeft_mod _ (by decide) (by omega),
      show 8 * ((y + 7) % 8) + x = (8 * y + x + (64 - 8)) % 64 by omega]

theorem decodeCommand_shl (r : Request) (h : r.cmd = 0x9) : decodeCommand r = .shl r.grid := by
  simp [decodeCommand, h]

theorem decodeCommand_shr (r : Request) (h : r.cmd = 0xA) : decodeCommand r = .shr r.grid := by
  simp [decodeCommand, h]

theorem decodeCommand_shu (r : Request) (h : r.cmd = 0xB) : decodeCommand r = .shu r.grid := by
  simp [decodeCommand, h]

theorem decodeCommand_shd (r : Request) (h : r.cmd = 0xC) : decodeCommand r = .shd r.grid := by
  simp [decodeCommand, h]

/-- Settles O51: the cells are `cell_shl` to `cell_shd`, and rotating a row or the whole grid moves the bits so. -/
theorem shiftsRotateRowsAndColumns : Obligations.ShiftsRotateRowsAndColumns :=
  ⟨fun r => ⟨decodeCommand_shl r, decodeCommand_shr r, decodeCommand_shu r, decodeCommand_shd r⟩, fun s g hs =>
    ⟨(exec_shl g s).trans (transact_respond_live hs _), (exec_shr g s).trans (transact_respond_live hs _),
      (exec_shu g s).trans (transact_respond_live hs _), (exec_shd g s).trans (transact_respond_live hs _),
      fun _ _ hx hy => ⟨cell_shl g hx hy, cell_shr g hx hy, cell_shu g hx hy, cell_shd g hx hy⟩,
      fun _ hy => ⟨row_shl g hy, row_shr g hy⟩, shuGrid_eq_rotateRight g, shdGrid_eq_rotateLeft g⟩⟩

end Machine
end Sys2Proof
end
